-- ==== Sys2Proof/Word.lean ====
section
/-! DEFINITION. The widths the spec gives the machine's values (00_scope.md R9; 10_state.md R20). All values are
unsigned. -/
namespace Sys2Proof

/-- Four bits: a register number, a key number, a nibble of an instruction word (30_encoding.md R91). -/
abbrev Nibble := BitVec 4

/-- Eight bits: a general register, a timer, a memory cell, the immediate `kk`. -/
abbrev Byte := BitVec 8

/-- Twelve bits: `I`, an address of memory, the field `nnn` (10_state.md R23; 20_memory.md R60; 30_encoding.md R91). -/
abbrev Addr := BitVec 12

/-- Sixteen bits: one instruction word (30_encoding.md R90). -/
abbrev Word := BitVec 16

end Sys2Proof
end

