-- ==== Sys2Proof/Config.lean ====
section
/-! DEFINITION. What is fixed for the machine (00_scope.md R7), the implementation parameters as configuration fields
(R8), and the one free value. This hardware's values of the fields stand where a repair can mend them: `params` in
Machine/Params.lean. -/
namespace Sys2Proof

/-- The implementation parameters of 00_scope.md R8, one field each. (INSTR_RATE, the last row there, is a rate of the
environment on which no rule depends; it is not modelled, 93_implementation_defined.md U17.) -/
structure Params where
  /-- STACK_DEPTH: the number of call-stack entries (10_state.md R26; 93_implementation_defined.md U15) -/
  stackDepth : Nat
  /-- PC_WIDTH: the width in bits of PC and of a stack entry (10_state.md R24, R26) -/
  pcWidth : Nat
  /-- HAS_SKP: whether `Ex9E` is an instruction (44_keys_timers.md R191) -/
  hasSkp : Bool
  /-- HAS_SNE_REG: whether `9xy0` is an instruction (40_flow.md R127) -/
  hasSneReg : Bool
  /-- HAS_JP_V0: whether `Bnnn` is an instruction (40_flow.md R123) -/
  hasJpV0 : Bool
  /-- FONT: the 80 bytes at 0x000 after reset (10_state.md R31; 93_implementation_defined.md U19) -/
  font : Vector Byte 80
  deriving DecidableEq, Repr

/-- MEM_SIZE of 00_scope.md R7. -/
def Config.memSize : Nat := 4096

/-- PROG_BASE of 00_scope.md R7: where `rom_load` puts the program, and the reset value of PC. -/
def Config.progBase : Addr := 0x200#12

/-- ROM_MAX of 00_scope.md R7: the longest program, 4096 - 0x200 bytes. -/
def Config.romMax : Nat := 3584

/-- THE FREE VALUE `rand_in` of 41_alu.md R153: the byte that the `n`-th executed Random consumes. "the core promises
nothing but its range": it has no body, so a statement about it holds for every byte source (log 2, safe). -/
opaque Config.randIn : Nat → Byte

end Sys2Proof
end

