-- ==== Sys2Proof/Machine/Font.lean ====
section
/-! DEFINITION. This hardware's value of the parameter FONT (10_state.md R31; 00_scope.md R8): 16 glyphs of
5 bytes, top row first. The bytes are the spec's own choice, from general knowledge (log 5); no meaning reads them but through memory. -/
namespace Sys2Proof.Machine

/-- The 80 font bytes, glyph 0 first (the table of 10_state.md R31). -/
def Font.table : Vector Byte 80 := Vector.mk (List.toArray (
  [0xF0, 0x90, 0x90, 0x90, 0xF0] ++ [0x20, 0x60, 0x20, 0x20, 0x70] ++
  [0xF0, 0x10, 0xF0, 0x80, 0xF0] ++ [0xF0, 0x10, 0xF0, 0x10, 0xF0] ++
  [0x90, 0x90, 0xF0, 0x10, 0x10] ++ [0xF0, 0x80, 0xF0, 0x10, 0xF0] ++
  [0xF0, 0x80, 0xF0, 0x90, 0xF0] ++ [0xF0, 0x10, 0x20, 0x40, 0x40] ++
  [0xF0, 0x90, 0xF0, 0x90, 0xF0] ++ [0xF0, 0x90, 0xF0, 0x10, 0xF0] ++
  [0xF0, 0x90, 0xF0, 0x90, 0x90] ++ [0xE0, 0x90, 0xE0, 0x90, 0xE0] ++
  [0xF0, 0x80, 0x80, 0x80, 0xF0] ++ [0xE0, 0x90, 0x90, 0x90, 0xE0] ++
  [0xF0, 0x80, 0xF0, 0x80, 0xF0] ++ [0xF0, 0x80, 0xF0, 0x80, 0x80])) rfl

end Sys2Proof.Machine
end

