-- ==== Sys2Proof/Machine/Params.lean ====
section
/-! DEFINITION. This hardware's values of the implementation parameters (00_scope.md R8, third column; logs 4, 5, 6).
Everything that depends on one reads it from here. -/
namespace Sys2Proof

/-- The configuration of this hardware. -/
abbrev params : Params where
  stackDepth := 16
  pcWidth := 12
  hasSkp := false
  hasSneReg := true
  hasJpV0 := true
  font := Machine.Font.table

/-- PC and stack entries: PC_WIDTH bits. -/
abbrev PcAddr := BitVec params.pcWidth

end Sys2Proof
end

