-- ==== Sys2Proof/Syntax.lean ====
section
/-! DEFINITION. The instructions: one constructor per row of spec/opcode_table.json (30_encoding.md R95), in the
table's order. `x`, `y` are register numbers, `kk`, `nnn`, `n` the immediates of R91. A field named `u` (and `y` in
the two shifts) holds bits the instruction does not use (R98): they are kept so that a word can be recovered whole,
and no meaning reads them but for the fault report, which shows the word as fetched. -/
namespace Sys2Proof

/-- The 34 instructions of the opcode map. -/
inductive Instr where
  | cls     (u : Nibble)                  -- 0?E0
  | ret     (u : Nibble)                  -- 0?EE
  | jp      (nnn : Addr)                  -- 1nnn
  | call    (nnn : Addr)                  -- 2nnn
  | seImm   (x : Nibble) (kk : Byte)      -- 3xkk
  | sneImm  (x : Nibble) (kk : Byte)      -- 4xkk
  | seReg   (x y u : Nibble)              -- 5xy?
  | ldImm   (x : Nibble) (kk : Byte)      -- 6xkk
  | addImm  (x : Nibble) (kk : Byte)      -- 7xkk
  | ldReg   (x y : Nibble)                -- 8xy0
  | orReg   (x y : Nibble)                -- 8xy1
  | andReg  (x y : Nibble)                -- 8xy2
  | xorReg  (x y : Nibble)                -- 8xy3
  | addReg  (x y : Nibble)                -- 8xy4
  | subReg  (x y : Nibble)                -- 8xy5
  | shr     (x y : Nibble)                -- 8x?6
  | subnReg (x y : Nibble)                -- 8xy7
  | shl     (x y : Nibble)                -- 8x?E
  | sneReg  (x y u : Nibble)              -- 9xy?  (optional)
  | ldI     (nnn : Addr)                  -- Annn
  | jpV0    (nnn : Addr)                  -- Bnnn  (optional)
  | rnd     (x : Nibble) (kk : Byte)      -- Cxkk
  | drw     (x y n : Nibble)              -- Dxyn
  | skp     (x : Nibble)                  -- Ex9E  (optional)
  | sknp    (x : Nibble)                  -- ExA1
  | ldVxDt  (x : Nibble)                  -- Fx07
  | ldVxK   (x : Nibble)                  -- Fx0A
  | ldDtVx  (x : Nibble)                  -- Fx15
  | ldStVx  (x : Nibble)                  -- Fx18
  | addI    (x : Nibble)                  -- Fx1E
  | ldF     (x : Nibble)                  -- Fx29
  | ldB     (x : Nibble)                  -- Fx33
  | ldMemVx (x : Nibble)                  -- Fx55
  | ldVxMem (x : Nibble)                  -- Fx65
  deriving DecidableEq, Repr

end Sys2Proof
end

