-- ==== Sys2Proof/WellFormed.lean ====
section
/-! DEFINITION. Which instructions are well formed. The fields of `Instr` have the widths of the word's fields, so
every register number and immediate is in range by its type; what is left to check is whether the hardware has the
instruction at all (00_scope.md R8), and, for what an assembler emits, whether the unused bits are 0 (30_encoding.md
R98, R101). -/
namespace Sys2Proof

/-- The instruction exists under these parameters (the column "present" of 30_encoding.md R95). -/
def Instr.presentIn (p : Params) : Instr → Bool
  | .sneReg _ _ _ => p.hasSneReg
  | .jpV0 _ => p.hasJpV0
  | .skp _ => p.hasSkp
  | .cls _ | .ret _ | .jp _ | .call _ | .seImm _ _ | .sneImm _ _ | .seReg _ _ _ | .ldImm _ _ | .addImm _ _
  | .ldReg _ _ | .orReg _ _ | .andReg _ _ | .xorReg _ _ | .addReg _ _ | .subReg _ _ | .shr _ _ | .subnReg _ _
  | .shl _ _ | .ldI _ | .rnd _ _ | .drw _ _ _ | .sknp _ | .ldVxDt _ | .ldVxK _ | .ldDtVx _ | .ldStVx _ | .addI _
  | .ldF _ | .ldB _ | .ldMemVx _ | .ldVxMem _ => true

/-- The unused bits are 0: the canonical encodings of 30_encoding.md R98, R101. A non-canonical instruction executes
all the same. -/
def Instr.canonical : Instr → Bool
  | .cls u | .ret u => u = 0
  | .seReg _ _ u | .sneReg _ _ u => u = 0
  | .shr _ y | .shl _ y => y = 0
  | .jp _ | .call _ | .seImm _ _ | .sneImm _ _ | .ldImm _ _ | .addImm _ _
  | .ldReg _ _ | .orReg _ _ | .andReg _ _ | .xorReg _ _ | .addReg _ _ | .subReg _ _ | .subnReg _ _
  | .ldI _ | .jpV0 _ | .rnd _ _ | .drw _ _ _ | .skp _ | .sknp _ | .ldVxDt _ | .ldVxK _ | .ldDtVx _ | .ldStVx _
  | .addI _ | .ldF _ | .ldB _ | .ldMemVx _ | .ldVxMem _ => true

end Sys2Proof
end

