-- ==== Sys2Proof/Machine/State.lean ====
section
/-! DEFINITION. The whole state of the core (10_state.md R20), as plain data, and its reset value (R40). -/
namespace Sys2Proof.Machine

/-- The two execution states (10_state.md R36). -/
inductive RunState where
  | running
  | halted
  deriving DecidableEq, Repr

/-- What the latch `err_kind` can say (60_exceptions.md R215); its 3-bit code is `ErrKind.code`. -/
inductive ErrKind where
  | none
  | unknownInstruction
  | stackOverflow
  | stackUnderflow
  | romTooLarge
  deriving DecidableEq, Repr

/-- Memory: the cells that differ from the reset contents, by address. The canonical form is `Memory.wf`
(Machine/Memory.lean): addresses strictly rising and below 4096, no cell equal to its reset contents. -/
abbrev Memory := List Host.Cell

/-- The 64 x 32 pixels at linear index `x + 64*y`; true is lit (10_state.md R32). -/
abbrev Display := Vector Bool 2048

/-- The state of the core. Every field but `randCount` is a row of 10_state.md R20. -/
structure State where
  /-- `V0..VF` (R21); `V[15]` is VF (R22) -/
  v : Vector Byte 16
  /-- the index register `I` (R23) -/
  ireg : Addr
  /-- the program counter (R24) -/
  pc : PcAddr
  /-- the return addresses (R26) -/
  stack : Vector PcAddr params.stackDepth
  /-- how many stack entries are in use, 0 to STACK_DEPTH (R26) -/
  sp : Fin (params.stackDepth + 1)
  /-- the delay timer (R27) -/
  dt : Byte
  /-- the sound timer (R28) -/
  st : Byte
  /-- memory (R29) -/
  mem : Memory
  /-- the display buffer (R32) -/
  disp : Display
  /-- the Input State; true is pressed (R33) -/
  key : Vector Bool 16
  /-- control flag (R34) -/
  displayChanged : Bool
  /-- control flag (R35) -/
  beepRequested : Bool
  /-- Running or Halted (R36) -/
  runState : RunState
  /-- fault latch (R37) -/
  errKind : ErrKind
  /-- fault latch (R37) -/
  errWord : Word
  /-- fault latch (R37) -/
  errPc : PcAddr
  /-- THE MODEL'S OWN FIELD: how many random bytes have been consumed; it picks the next free byte
  `Config.randIn randCount` (log 2) -/
  randCount : Nat
  deriving DecidableEq, Repr

/-- Reasons to stop. There is none: every fatal condition of the spec (60_exceptions.md R215) has a described entry
(R216) and is a next state, Halted (log 1, safe: nothing is left out by it). -/
inductive Fault where
  deriving DecidableEq, Repr

/-- Reasons to refuse an instruction. -/
inductive Refusal where
  /-- an arm of `exec` without a meaning; safe (the model stops where the hardware goes on). No arm raises it: every
  instruction has its meaning -/
  | notModelled (mnemonic : String)
  deriving DecidableEq, Repr

/-- The machine right after reset or power-on (10_state.md R40; 70_reset_and_hazards.md R250, R251). Memory lists
nothing: every cell reads as its reset contents (R30). -/
def State.reset : State where
  v := Vector.replicate 16 0
  ireg := 0
  pc := Config.progBase.setWidth params.pcWidth
  stack := Vector.replicate params.stackDepth 0
  sp := 0
  dt := 0
  st := 0
  mem := []
  disp := Vector.replicate 2048 false
  key := Vector.replicate 16 false
  displayChanged := false
  beepRequested := false
  runState := .running
  errKind := .none
  errWord := 0
  errPc := 0
  randCount := 0

end Sys2Proof.Machine
end

