-- ==== Sys2Proof/Machine/Display.lean ====
section
/-! DEFINITION. The display buffer and the XOR blit (10_state.md R32; 43_display.md R181, R182). -/
namespace Sys2Proof.Machine

/-- The buffer with no pixel lit. -/
def Display.blank : Display := Vector.replicate 2048 false

/-- The pixel at column `px`, row `py`, stored at `px + 64*py`; outside the 64 x 32 grid there is none, read as not
lit. -/
def Display.pixel (d : Display) (px py : Nat) : Bool :=
  if h : px < 64 ∧ py < 32 then d[px + 64 * py]'(by omega) else false

/-- The buffer with that pixel inverted; outside the grid nothing is drawn. -/
def Display.flip (d : Display) (px py : Nat) : Display :=
  if h : px < 64 ∧ py < 32 then d.set (px + 64 * py) (!d[px + 64 * py]'(by omega)) (by omega) else d

/-- One sprite bit at one place: a 1 bit inside the grid inverts its pixel, and collides when the pixel was lit. The
accumulator is the buffer and the collision so far. -/
def blitPixel (acc : Display × Bool) (bit : Bool) (px py : Nat) : Display × Bool :=
  if bit && decide (px ≤ 63) && decide (py ≤ 31) then (acc.1.flip px py, acc.2 || acc.1.pixel px py) else acc

/-- One sprite row, the leftmost pixel from bit 7 (43_display.md R182). -/
def blitRow (acc : Display × Bool) (b : Byte) (x0 py : Nat) : Display × Bool :=
  (List.range 8).foldl (fun acc c => blitPixel acc (b.getLsbD (7 - c)) (x0 + c) py) acc

/-- The rows of a sprite from row `py` down. -/
def blitRows (acc : Display × Bool) (x0 : Nat) : List Byte → Nat → Display × Bool
  | [], _ => acc
  | b :: bs, py => blitRows (blitRow acc b x0 py) x0 bs (py + 1)

end Sys2Proof.Machine
end

