-- ==== Sys2Proof/Machine/Memory.lean ====
section
/-! DEFINITION. The operations on the list that holds memory. The list names the cells that differ from the reset
contents; reading and writing mean the same on any list, and keep the canonical form where it holds. -/
namespace Sys2Proof.Machine

/-- What an unlisted address reads as: the reset contents of 10_state.md R30, R40, FONT at 0x000..0x04F and 0
elsewhere (log 3). -/
def Memory.resetByte (a : Nat) : Byte := (params.font[a]?).getD 0

/-- The byte at an address. -/
def Memory.read : Memory → Nat → Byte
  | [], a => Memory.resetByte a
  | (k, b) :: m, a => if k = a then b else Memory.read m a

/-- The list without any entry for the address. -/
def Memory.erase (m : Memory) (a : Nat) : Memory := m.filter (fun c => c.1 != a)

/-- The entry put before the first larger address. -/
def Memory.insert : Memory → Nat → Byte → Memory
  | [], a, b => [(a, b)]
  | (k, c) :: m, a, b => if a < k then (a, b) :: (k, c) :: m else (k, c) :: Memory.insert m a b

/-- The memory after a byte is written: a byte equal to the cell's reset contents leaves it unlisted. -/
def Memory.write (m : Memory) (a : Nat) (b : Byte) : Memory :=
  if b = Memory.resetByte a then Memory.erase m a else Memory.insert (Memory.erase m a) a b

/-- The canonical form from address `lo` on. -/
def Memory.wfFrom : Nat → Memory → Bool
  | _, [] => true
  | lo, (k, b) :: m =>
    decide (lo ≤ k) && decide (k < Config.memSize) && decide (b ≠ Memory.resetByte k) && Memory.wfFrom (k + 1) m

/-- The canonical form: addresses strictly rising and below 4096, no entry equal to the cell's reset contents. -/
def Memory.wf (m : Memory) : Bool := Memory.wfFrom 0 m

end Sys2Proof.Machine
end

