-- ==== Sys2Proof/Machine/Flags.lean ====
section
/-! DEFINITION. Every flag computation and every arithmetic result of the spec (10_state.md R22, 41_alu.md R151):
operands as unbounded integers, flags as comparisons on them, results narrowed at the end (00_scope.md R11). -/
namespace Sys2Proof.Machine

/-- The byte a flag writes into VF: 1 or 0, never left alone (10_state.md R22). -/
def flagByte (c : Bool) : Byte := if c then 1 else 0

/-- Carry out of eight bits (41_alu.md R146). -/
def addCarry (a b : Byte) : Bool := decide (a.toNat + b.toNat > 255)

/-- Sum modulo 256 (41_alu.md R141, R146). -/
def addResult (a b : Byte) : Byte := BitVec.ofNat 8 (a.toNat + b.toNat)

/-- No borrow in `a - b`: 1 when `a >= b` (41_alu.md R147, R148). -/
def subNoBorrow (a b : Byte) : Bool := decide (b.toNat ≤ a.toNat)

/-- Difference modulo 256 (00_scope.md R11: `a - b + 256` when `a < b`). -/
def subResult (a b : Byte) : Byte := BitVec.ofNat 8 (a.toNat + 256 - b.toNat)

/-- The bit a right shift loses (41_alu.md R149). -/
def shrOut (a : Byte) : Bool := a.getLsbD 0

/-- Logical shift right by one (41_alu.md R149). -/
def shrResult (a : Byte) : Byte := BitVec.ofNat 8 (a.toNat / 2)

/-- The bit a left shift loses (41_alu.md R150; 90_conflicts.md C2). -/
def shlOut (a : Byte) : Bool := a.getLsbD 7

/-- Shift left by one modulo 256 (41_alu.md R150). -/
def shlResult (a : Byte) : Byte := BitVec.ofNat 8 (a.toNat * 2)

/-- Carry out of twelve bits in `I + V[x]` (42_index_memory.md R161). -/
def indexCarry (i : Addr) (a : Byte) : Bool := decide (i.toNat + a.toNat > 0xFFF)

/-- `I + V[x]` modulo 4096 (42_index_memory.md R161). -/
def indexSum (i : Addr) (a : Byte) : Addr := BitVec.ofNat 12 (i.toNat + a.toNat)

end Sys2Proof.Machine
end

