-- ==== Sys2Proof/Machine/Operands.lean ====
section
/-! DEFINITION. Every operand form (30_encoding.md R93; 42_index_memory.md R166). Register numbers and immediates are
used as they are; what is computed is here: effective addresses, jump targets, the key a value selects, the origin of
a sprite, decimal digits. -/
namespace Sys2Proof.Machine

/-- The address after `a` by `off` bytes, modulo 4096 (20_memory.md R60; log 6). -/
def addrPlus (a : Addr) (off : Nat) : Addr := BitVec.ofNat 12 (a.toNat + off)

/-- The PC value `off` bytes after `a`, modulo 2^PC_WIDTH (10_state.md R24; log 6). -/
def pcPlus (a : PcAddr) (off : Nat) : PcAddr := BitVec.ofNat params.pcWidth (a.toNat + off)

/-- An address as PC takes it, PC_WIDTH bits (00_scope.md R10). -/
def pcOf (a : Addr) : PcAddr := a.setWidth params.pcWidth

/-- The address of memory that a PC value names, `a mod 4096` (20_memory.md R61). -/
def memAddr (a : PcAddr) : Addr := a.setWidth 12

/-- The target of Jump-V0: `nnn + V[0]` modulo 4096, no flag (40_flow.md R123). -/
def jumpV0Target (nnn : Addr) (v0 : Byte) : PcAddr := pcPlus (pcOf nnn) v0.toNat

/-- The glyph address `5 * V[x]`: the whole byte, not its low nibble (42_index_memory.md R162). -/
def glyphAddr (a : Byte) : Addr := BitVec.ofNat 12 (5 * a.toNat)

/-- Hundreds, tens, units, in the order they are stored (42_index_memory.md R163; 20_memory.md R63). -/
def bcdDigits (a : Byte) : List Byte :=
  [BitVec.ofNat 8 (a.toNat / 100), BitVec.ofNat 8 (a.toNat / 10 % 10), BitVec.ofNat 8 (a.toNat % 10)]

/-- The key a register value selects: its low four bits (44_keys_timers.md R196; log 10). -/
def keySelect (a : Byte) : Nibble := a.extractLsb' 0 4

/-- The sprite's left column: `V[x]` modulo 64 (43_display.md R181). -/
def drawColumn (a : Byte) : Nat := a.toNat % 64

/-- DRAW_Y_MODULUS of 93_implementation_defined.md U5: 256, so the row origin is not reduced (90_conflicts.md C6;
log 6). -/
def drawYModulus : Nat := 256

/-- The sprite's top row: `V[y]` modulo 256 (43_display.md R181, R183 item 1). -/
def drawRow (a : Byte) : Nat := a.toNat % drawYModulus

end Sys2Proof.Machine
end

