-- ==== Sys2Proof/Machine/Ops.lean ====
section
/-! DEFINITION. The named operations on the state: every read and write of a meaning goes through them. -/
namespace Sys2Proof.Machine

/-! ### General registers (10_state.md R21, R22): no register is hard-wired -/

/-- `V[x]`. -/
def State.reg (s : State) (x : Nibble) : Byte := s.v[x.toNat]'x.isLt

/-- `V[x] <- b`. -/
def State.setReg (s : State) (x : Nibble) (b : Byte) : State := { s with v := s.v.set x.toNat b x.isLt }

/-- VF written as a flag, always to 0 or 1 (10_state.md R22). -/
def State.setFlag (s : State) (c : Bool) : State := s.setReg 15 (flagByte c)

/-- The flag first, the result second: with `x = 15` the result stays (70_reset_and_hazards.md R258; log 9). -/
def State.setFlagThenReg (s : State) (x : Nibble) (c : Bool) (b : Byte) : State := (s.setFlag c).setReg x b

/-! ### I and PC -/

def State.setIndex (s : State) (a : Addr) : State := { s with ireg := a }

def State.setPc (s : State) (a : PcAddr) : State := { s with pc := a }

/-- `npc`: the address of the next instruction in sequence (00_scope.md R10). -/
def State.npc (s : State) : PcAddr := pcPlus s.pc 2

/-- `PC <- npc` (60_exceptions.md R211). -/
def State.advance (s : State) : State := s.setPc s.npc

/-- Past the next instruction when the condition holds, else to it (40_flow.md R124). -/
def State.skipIf (s : State) (c : Bool) : State := if c then s.setPc (pcPlus s.npc 2) else s.advance

/-! ### Memory (20_memory.md R60 to R66) -/

/-- `MemRead(a, 1)`. -/
def State.readByte (s : State) (a : Addr) : Byte := Memory.read s.mem a.toNat

/-- `MemWrite(a, 1, b)`. -/
def State.writeByte (s : State) (a : Addr) (b : Byte) : State := { s with mem := Memory.write s.mem a.toNat b }

/-- Bytes stored at consecutive addresses from `a` up, wrapping one by one (20_memory.md R60, R63, R66). -/
def State.storeBytes (s : State) (a : Addr) : List Byte → State
  | [] => s
  | b :: bs => (s.writeByte a b).storeBytes (addrPlus a 1) bs

/-- `V[0]` to `V[k-1]`. -/
def State.regsBelow (s : State) (k : Nat) : List Byte := (List.range k).map (fun j => s.reg (BitVec.ofNat 4 j))

/-- `V[j] <- MEM[I + j]` for `j = 0` to `k - 1` (42_index_memory.md R165). -/
def State.loadRegs (s : State) : Nat → State
  | 0 => s
  | k + 1 => (s.loadRegs k).setReg (BitVec.ofNat 4 k) (s.readByte (addrPlus s.ireg k))

/-- `FetchWord(a)`: big-endian, the second byte's address wraps (20_memory.md R61). -/
def State.fetchWord (s : State) (a : PcAddr) : Word :=
  s.readByte (memAddr a) ++ s.readByte (addrPlus (memAddr a) 1)

/-! ### The call stack (10_state.md R26), outside memory -/

/-- Push; none when all entries are in use. -/
def State.push (s : State) (a : PcAddr) : Option State :=
  if h : s.sp.val < params.stackDepth then
    some { s with stack := s.stack.set s.sp.val a h, sp := ⟨s.sp.val + 1, Nat.succ_lt_succ h⟩ }
  else none

/-- Pop: the entry at the new SP and the state after; none when no entry is in use. The entry keeps its value. -/
def State.pop (s : State) : Option (PcAddr × State) :=
  if h : 0 < s.sp.val then
    some (s.stack[s.sp.val - 1]'(by omega), { s with sp := ⟨s.sp.val - 1, by omega⟩ })
  else none

/-! ### Taking a fatal condition (60_exceptions.md R215, R216) -/

/-- The codes of 60_exceptions.md R215. -/
def ErrKind.code : ErrKind → BitVec 3
  | .none => 0
  | .unknownInstruction => 1
  | .stackOverflow => 2
  | .stackUnderflow => 3
  | .romTooLarge => 4

/-- `raise <Fault>(w, pc0)`, the one exception entry of the machine: Halted, the three latches written, PC at the
faulting instruction, nothing else changed (60_exceptions.md R216). There is no return from it but reset (R219). -/
def State.raise (s : State) (k : ErrKind) (w : Word) (pc0 : PcAddr) : State :=
  { s with runState := .halted, errKind := k, errWord := w, errPc := pc0, pc := pc0 }

/-! ### Display, keys, timers -/

/-- The pixel at column `px`, row `py`. -/
def State.pixel (s : State) (px py : Nat) : Bool := s.disp.pixel px py

/-- The sprite's rows `MEM[I]` to `MEM[I + n - 1]` (43_display.md R181, R183 item 7). -/
def State.spriteRows (s : State) (n : Nat) : List Byte := (List.range n).map (fun r => s.readByte (addrPlus s.ireg r))

/-- The display replaced and `display_changed` raised, also when no pixel changed (10_state.md R34). -/
def State.setDisplay (s : State) (d : Display) : State := { s with disp := d, displayChanged := true }

/-- `KEY[k]`. -/
def State.keyOn (s : State) (k : Nibble) : Bool := s.key[k.toNat]'k.isLt

/-- The least pressed key, if any (44_keys_timers.md R197; log 11). -/
def State.leastKey (s : State) : Option Nibble := ((List.range 16).map (BitVec.ofNat 4)).find? s.keyOn

/-- `KEY[k] <- b`. -/
def State.setKey (s : State) (k : Nibble) (b : Bool) : State := { s with key := s.key.set k.toNat b k.isLt }

def State.setDt (s : State) (b : Byte) : State := { s with dt := b }

def State.setSt (s : State) (b : Byte) : State := { s with st := b }

/-! ### The random byte (41_alu.md R153) -/

/-- One random byte has been consumed; the next Random takes a fresh one. -/
def State.useRand (s : State) : State := { s with randCount := s.randCount + 1 }

end Sys2Proof.Machine
end

