-- ==== Sys2Proof/Machine/Flow.lean ====
section
/-! DEFINITION. Control transfer (40_flow.md R120 to R128). A meaning starts with PC at the instruction itself, `pc0`,
and makes the advance of 60_exceptions.md R211 itself. -/
namespace Sys2Proof.Machine

/-- What every meaning answers: a next state, a fault or a refusal. -/
abbrev Result := Host.Outcome State Fault Refusal

/-- Return, `00EE` (40_flow.md R120): the last pushed address into PC, or StackUnderflow. `u` is only reported. -/
def execRet (u : Nibble) (s : State) : Result :=
  match s.pop with
  | some (a, t) => .next (t.setPc a)
  | none => .next (s.raise .stackUnderflow (encode (.ret u)) s.pc)

/-- Jump, `1nnn` (40_flow.md R121). -/
def execJp (nnn : Addr) (s : State) : Result := .next (s.setPc (pcOf nnn))

/-- Call, `2nnn` (40_flow.md R122): pushes the address after the call, or StackOverflow. -/
def execCall (nnn : Addr) (s : State) : Result :=
  match s.push s.npc with
  | some t => .next (t.setPc (pcOf nnn))
  | none => .next (s.raise .stackOverflow (encode (.call nnn)) s.pc)

/-- Jump-V0, `Bnnn` (40_flow.md R123). -/
def execJpV0 (nnn : Addr) (s : State) : Result := .next (s.setPc (jumpV0Target nnn (s.reg 0)))

/-- Skip-Eq-Imm, `3xkk` (40_flow.md R124). -/
def execSeImm (x : Nibble) (kk : Byte) (s : State) : Result := .next (s.skipIf (decide (s.reg x = kk)))

/-- Skip-Neq-Imm, `4xkk` (40_flow.md R125). -/
def execSneImm (x : Nibble) (kk : Byte) (s : State) : Result := .next (s.skipIf (decide (s.reg x ≠ kk)))

/-- Skip-Eq-Reg, `5xy0` (40_flow.md R126). -/
def execSeReg (x y : Nibble) (s : State) : Result := .next (s.skipIf (decide (s.reg x = s.reg y)))

/-- Skip-Neq-Reg, `9xy0` (40_flow.md R127). -/
def execSneReg (x y : Nibble) (s : State) : Result := .next (s.skipIf (decide (s.reg x ≠ s.reg y)))

end Sys2Proof.Machine
end

