-- ==== Sys2Proof/Machine/Alu.lean ====
section
/-! DEFINITION. Register loads, arithmetic, logic, shifts, random (41_alu.md R140 to R153). Operands are read from the
state before any write (00_scope.md R12). -/
namespace Sys2Proof.Machine

/-- Load-Imm, `6xkk` (41_alu.md R140). -/
def execLdImm (x : Nibble) (kk : Byte) (s : State) : Result := .next (s.setReg x kk).advance

/-- Add-Imm, `7xkk`: no flag (41_alu.md R141). -/
def execAddImm (x : Nibble) (kk : Byte) (s : State) : Result := .next (s.setReg x (addResult (s.reg x) kk)).advance

/-- assign, `8xy0` (41_alu.md R142). -/
def execLdReg (x y : Nibble) (s : State) : Result := .next (s.setReg x (s.reg y)).advance

/-- OR, `8xy1`: VF untouched (41_alu.md R143). -/
def execOrReg (x y : Nibble) (s : State) : Result := .next (s.setReg x (s.reg x ||| s.reg y)).advance

/-- AND, `8xy2`: VF untouched (41_alu.md R144). -/
def execAndReg (x y : Nibble) (s : State) : Result := .next (s.setReg x (s.reg x &&& s.reg y)).advance

/-- XOR, `8xy3`: VF untouched (41_alu.md R145). -/
def execXorReg (x y : Nibble) (s : State) : Result := .next (s.setReg x (s.reg x ^^^ s.reg y)).advance

/-- Add, `8xy4` (41_alu.md R146). -/
def execAddReg (x y : Nibble) (s : State) : Result :=
  .next (s.setFlagThenReg x (addCarry (s.reg x) (s.reg y)) (addResult (s.reg x) (s.reg y))).advance

/-- Sub, `8xy5` (41_alu.md R147). -/
def execSubReg (x y : Nibble) (s : State) : Result :=
  .next (s.setFlagThenReg x (subNoBorrow (s.reg x) (s.reg y)) (subResult (s.reg x) (s.reg y))).advance

/-- Sub-reverse, `8xy7`: `V[y] - V[x]` into `V[x]` (41_alu.md R148). -/
def execSubnReg (x y : Nibble) (s : State) : Result :=
  .next (s.setFlagThenReg x (subNoBorrow (s.reg y) (s.reg x)) (subResult (s.reg y) (s.reg x))).advance

/-- Shift-right, `8xy6`: `V[y]` is not read (41_alu.md R149). -/
def execShr (x : Nibble) (s : State) : Result :=
  .next (s.setFlagThenReg x (shrOut (s.reg x)) (shrResult (s.reg x))).advance

/-- Shift-left, `8xyE`: `V[y]` is not read (41_alu.md R150). -/
def execShl (x : Nibble) (s : State) : Result :=
  .next (s.setFlagThenReg x (shlOut (s.reg x)) (shlResult (s.reg x))).advance

/-- Random, `Cxkk`, with the byte `r` supplied to the step (41_alu.md R153). -/
def execRndFrom (r : Byte) (x : Nibble) (kk : Byte) (s : State) : Result :=
  .next ((s.setReg x (r &&& kk)).useRand).advance

/-- Random with the next free byte (log 2). -/
def execRnd (x : Nibble) (kk : Byte) (s : State) : Result := execRndFrom (Config.randIn s.randCount) x kk s

end Sys2Proof.Machine
end

