-- ==== Sys2Proof/Machine/Draw.lean ====
section
/-! DEFINITION. Display instructions (43_display.md R180 to R184). -/
namespace Sys2Proof.Machine

/-- Clear, `00E0` (43_display.md R180). -/
def execCls (s : State) : Result := .next (s.setDisplay Display.blank).advance

/-- The buffer after the draw and the collision (43_display.md R181). -/
def State.blit (s : State) (x y n : Nibble) : Display × Bool :=
  blitRows (s.disp, false) (drawColumn (s.reg x)) (s.spriteRows n.toNat) (drawRow (s.reg y))

/-- Draw, `Dxyn` (43_display.md R181, R183): VF takes the collision, after both coordinates were read. -/
def execDrw (x y n : Nibble) (s : State) : Result :=
  .next (((s.setDisplay (s.blit x y n).1).setFlag (s.blit x y n).2)).advance

end Sys2Proof.Machine
end

