-- ==== Sys2Proof/Machine/IndexMemory.lean ====
section
/-! DEFINITION. Index register and memory instructions (42_index_memory.md R160 to R166). `I` on the right is the value
at the start of the step. -/
namespace Sys2Proof.Machine

/-- Load-I, `Annn` (42_index_memory.md R160). -/
def execLdI (nnn : Addr) (s : State) : Result := .next (s.setIndex nnn).advance

/-- Add-I, `Fx1E`: VF takes the carry out of twelve bits (42_index_memory.md R161). -/
def execAddI (x : Nibble) (s : State) : Result :=
  .next ((s.setFlag (indexCarry s.ireg (s.reg x))).setIndex (indexSum s.ireg (s.reg x))).advance

/-- Font-address, `Fx29` (42_index_memory.md R162). -/
def execLdF (x : Nibble) (s : State) : Result := .next (s.setIndex (glyphAddr (s.reg x))).advance

/-- BCD-store, `Fx33`: `I` stays (42_index_memory.md R163). -/
def execLdB (x : Nibble) (s : State) : Result := .next (s.storeBytes s.ireg (bcdDigits (s.reg x))).advance

/-- Reg-dump, `Fx55`: `V[0..x]` stored, then `I` moved past them (42_index_memory.md R164). -/
def execLdMemVx (x : Nibble) (s : State) : Result :=
  .next ((s.storeBytes s.ireg (s.regsBelow (x.toNat + 1))).setIndex (addrPlus s.ireg (x.toNat + 1))).advance

/-- Reg-load, `Fx65`: `V[0..x]` loaded, then `I` moved past them (42_index_memory.md R165). -/
def execLdVxMem (x : Nibble) (s : State) : Result :=
  .next ((s.loadRegs (x.toNat + 1)).setIndex (addrPlus s.ireg (x.toNat + 1))).advance

end Sys2Proof.Machine
end

