-- ==== Sys2Proof/Machine/KeysTimers.lean ====
section
/-! DEFINITION. Key and timer instructions (44_keys_timers.md R190 to R197). -/
namespace Sys2Proof.Machine

/-- Skip-if-pressed, `Ex9E`; the decoder finds it only where the hardware has it (44_keys_timers.md R191). -/
def execSkp (x : Nibble) (s : State) : Result := .next (s.skipIf (s.keyOn (keySelect (s.reg x))))

/-- Skip-if-not-pressed, `ExA1` (44_keys_timers.md R190). -/
def execSknp (x : Nibble) (s : State) : Result := .next (s.skipIf (!s.keyOn (keySelect (s.reg x))))

/-- Get-delay, `Fx07` (44_keys_timers.md R193). -/
def execLdVxDt (x : Nibble) (s : State) : Result := .next (s.setReg x s.dt).advance

/-- Wait-key, `Fx0A` (44_keys_timers.md R192): with no key pressed PC stays at the instruction, which runs again at
the next step. -/
def execLdVxK (x : Nibble) (s : State) : Result :=
  match s.leastKey with
  | some k => .next (s.setReg x (k.setWidth 8)).advance
  | none => .next (s.setPc s.pc)

/-- Set-delay, `Fx15` (44_keys_timers.md R194). -/
def execLdDtVx (x : Nibble) (s : State) : Result := .next (s.setDt (s.reg x)).advance

/-- Set-sound, `Fx18`: no beep request, whatever is written (44_keys_timers.md R195). -/
def execLdStVx (x : Nibble) (s : State) : Result := .next (s.setSt (s.reg x)).advance

end Sys2Proof.Machine
end

