-- ==== Sys2Proof/Machine/Fetch.lean ====
section
/-! DEFINITION. One fetch-decode-execute cycle (60_exceptions.md R211), over the parameters and over what runs a
decoded instruction, so that Step.lean and Events.lean share it. -/
namespace Sys2Proof.Machine

/-- The cycle: nothing in Halted (R229); an unknown word takes UnknownInstruction (30_encoding.md R97); else the
decoded instruction runs. -/
def cycle (p : Params) (run : Instr → State → Result) (s : State) : Result :=
  match s.runState with
  | .halted => .next s
  | .running =>
    match decodeWith p (s.fetchWord s.pc) with
    | .ok i => run i s
    | .error _ => .next (s.raise .unknownInstruction (s.fetchWord s.pc) s.pc)

/-- The state with the bytes placed where the next fetch reads and the machine Running, which the fetch needs. -/
def State.placeInstr (s : State) (bs : List Byte) : State := { s.storeBytes (memAddr s.pc) bs with runState := .running }

end Sys2Proof.Machine
end

