-- ==== Sys2Proof/Machine/Step.lean ====
section
/-! DEFINITION. One step of this hardware, and the placing of an instruction where it fetches. -/
namespace Sys2Proof.Machine

/-- The `step` event (60_exceptions.md R211) with this hardware's parameters and the free random byte. -/
def step (s : State) : Host.Outcome State Fault Refusal := cycle params exec s

/-- `s` with the instruction of bits `w` (numbered as spec/opcode_table.json numbers them, the bits above `nbits` 0)
at PC, in Running. -/
def State.withFetchWord (s : State) (nbits w : Nat) : State := s.placeInstr (tableWordBytes nbits w)

end Sys2Proof.Machine
end

