-- ==== Sys2Proof/Machine/Events.lean ====
section
/-! DEFINITION. The other events of the interface (60_exceptions.md R210 to R213, R221 to R223, R229, R230;
70_reset_and_hazards.md R250, R252). Each is applied whole, one after another; the environment chooses the order
(00_scope.md R14). -/
namespace Sys2Proof.Machine

/-- The eight events of 60_exceptions.md R210. A key number is four bits, so none is out of range (R212). -/
inductive Event where
  | reset
  | romLoad (rom : List Byte)
  | step (randIn : Byte)
  | tick
  | keyDown (k : Nibble)
  | keyUp (k : Nibble)
  | ackDisplay
  | ackBeep
  deriving DecidableEq, Repr

/-- A decoded instruction with the random byte given as the step's argument (41_alu.md R153). -/
def execWithRand (r : Byte) (i : Instr) (s : State) : Result :=
  match i with
  | .rnd x kk => execRndFrom r x kk s
  | _ => exec i s

/-- The `step` event with its argument (60_exceptions.md R210, R211). -/
def stepEvent (r : Byte) (s : State) : Result := cycle params (execWithRand r) s

/-- The delay timer's part of a tick (60_exceptions.md R221). -/
def tickDelay (s : State) : State := if s.dt = 0 then s else s.setDt (s.dt - 1)

/-- The sound timer's part of a tick: the decrement that reaches 0 requests a beep (60_exceptions.md R222). -/
def tickSound (s : State) : State :=
  if s.st = 0 then s
  else { s.setSt (s.st - 1) with beepRequested := s.beepRequested || decide (s.st - 1 = 0) }

/-- One `tick` serves both timers; in Halted it does nothing (60_exceptions.md R221, R222, R229). -/
def tick (s : State) : State :=
  match s.runState with
  | .running => tickSound (tickDelay s)
  | .halted => s

/-- `key_down` (60_exceptions.md R212), in either run state. -/
def keyDown (k : Nibble) (s : State) : State := s.setKey k true

/-- `key_up` (60_exceptions.md R212), in either run state. -/
def keyUp (k : Nibble) (s : State) : State := s.setKey k false

/-- `ack_display` (60_exceptions.md R213), in either run state. -/
def ackDisplay (s : State) : State := { s with displayChanged := false }

/-- `ack_beep` (60_exceptions.md R213), in either run state. -/
def ackBeep (s : State) : State := { s with beepRequested := false }

/-- `reset`: every item of the spec's state to its reset value, in either run state (70_reset_and_hazards.md R250). The
count of consumed random bytes, the model's own field, goes on, so that bytes after a reset are fresh too (log 2). -/
def resetEvent (s : State) : State := { State.reset with randCount := s.randCount }

/-- `rom_load` (70_reset_and_hazards.md R252): nothing in Halted; too long a program takes RomTooLarge and writes no
byte (60_exceptions.md R230); else the bytes go to 0x200 upward. A load after the first step copies all the same
(R253; log 12). -/
def romLoad (rom : List Byte) (s : State) : State :=
  match s.runState with
  | .halted => s
  | .running =>
    if rom.length > Config.romMax then s.raise .romTooLarge 0 s.pc else s.storeBytes Config.progBase rom

/-- One event applied to the core. -/
def applyEvent (e : Event) (s : State) : Result :=
  match e with
  | .reset => .next (resetEvent s)
  | .romLoad rom => .next (romLoad rom s)
  | .step r => stepEvent r s
  | .tick => .next (tick s)
  | .keyDown k => .next (keyDown k s)
  | .keyUp k => .next (keyUp k s)
  | .ackDisplay => .next (ackDisplay s)
  | .ackBeep => .next (ackBeep s)

/-- Events in the order the environment issues them. -/
def applyEvents : List Event → State → Result
  | [], s => .next s
  | e :: es, s =>
    match applyEvent e s with
    | .next t => applyEvents es t
    | .fault r => .fault r
    | .refused r => .refused r

end Sys2Proof.Machine
end

