-- ==== Sys2Proof/Machine/Outputs.lean ====
section
/-! DEFINITION. The outputs readable between events (60_exceptions.md R210, R214): plain reads with no side effect. The
debug read of R214 is the state itself. -/
namespace Sys2Proof.Machine

/-- `disp_out`: the pixel at linear index `x + 64*y`. -/
def State.dispOut (s : State) (k : Fin 2048) : Bool := s.disp[k.val]

/-- `halted`. -/
def State.halted (s : State) : Bool := decide (s.runState = .halted)

/-- `err_kind` as its 3-bit code (60_exceptions.md R215). -/
def State.errKindOut (s : State) : BitVec 3 := s.errKind.code

end Sys2Proof.Machine
end

