-- ==== Sys2Proof/Safety.lean ====
section
/-! DEFINITION. The terms in which claims speak: what a state's parts are and when a step leaves one alone (the frame
rule, 00_scope.md R13), the invariant every event keeps, a safe run, the end of a run, where a sprite has its bits. -/
namespace Sys2Proof.Safety

open Sys2Proof.Machine

/-- The parts of a state, as finely as an instruction can write them. -/
inductive Part where
  | reg (x : Nibble)
  | index
  | pc
  | stackEntry (k : Nat)
  | sp
  | dt
  | st
  | byte (a : Addr)
  | display
  | key (k : Nibble)
  | displayChanged
  | beepRequested
  | runState
  | errKind
  | errWord
  | errPc
  | randCount
  deriving DecidableEq, Repr

/-- The part reads the same in both states. -/
def Unchanged (s t : State) : Part → Prop
  | .reg x => t.reg x = s.reg x
  | .index => t.ireg = s.ireg
  | .pc => t.pc = s.pc
  | .stackEntry k => t.stack[k]? = s.stack[k]?
  | .sp => t.sp = s.sp
  | .dt => t.dt = s.dt
  | .st => t.st = s.st
  | .byte a => t.readByte a = s.readByte a
  | .display => t.disp = s.disp
  | .key k => t.keyOn k = s.keyOn k
  | .displayChanged => t.displayChanged = s.displayChanged
  | .beepRequested => t.beepRequested = s.beepRequested
  | .runState => t.runState = s.runState
  | .errKind => t.errKind = s.errKind
  | .errWord => t.errWord = s.errWord
  | .errPc => t.errPc = s.errPc
  | .randCount => t.randCount = s.randCount

/-- Going from `s` to `t` changes at most the listed parts: every other register, memory byte, flag, latch, timer, key,
stack entry and the display are as before. -/
def OnlyChanges (may : List Part) (s t : State) : Prop := ∀ p, p ∉ may → Unchanged s t p

/-- The parts a fatal condition writes (60_exceptions.md R216); PC is written back to the instruction's own address. -/
def faultParts : List Part := [.runState, .errKind, .errWord, .errPc, .pc]

/-- The bytes `[I], [I+1], ...` that a store of `k` bytes writes. -/
def bytesFrom (a : Addr) (k : Nat) : List Part := (List.range k).map (fun j => .byte (addrPlus a j))

/-- The registers `V[0]` to `V[k-1]`. -/
def regsBelow (k : Nat) : List Part := (List.range k).map (fun j => .reg (BitVec.ofNat 4 j))

/-- What the latches and the run state say together. Running: no fault is recorded (10_state.md R37, R40). Halted: one
is, PC stands at the faulting instruction (60_exceptions.md R216), and the record tells the condition's cause: an
unknown word, a Call word with the stack full, a Return word with it empty, or word 0 for a load (R215); for the three
raised by a step the recorded word is the one in memory at the recorded address (memory cannot change in Halted,
R229). -/
def FaultRecordOk (s : State) : Prop :=
  match s.runState, s.errKind with
  | .running, .none => s.errWord = 0 ∧ s.errPc = 0
  | .running, _ => False
  | .halted, .none => False
  | .halted, .unknownInstruction =>
    s.errPc = s.pc ∧ s.errWord = s.fetchWord s.pc ∧ decode s.errWord = .error (.unknownInstruction s.errWord)
  | .halted, .stackOverflow =>
    s.errPc = s.pc ∧ s.errWord = s.fetchWord s.pc ∧ fieldOp s.errWord = 2 ∧ s.sp.val = params.stackDepth
  | .halted, .stackUnderflow =>
    s.errPc = s.pc ∧ s.errWord = s.fetchWord s.pc ∧ s.errWord &&& 0xF0FF = 0x00EE ∧ s.sp.val = 0
  | .halted, .romTooLarge => s.errPc = s.pc ∧ s.errWord = 0

/-- THE INVARIANT: memory is in its canonical form and the fault record agrees with the run state. -/
def Inv (s : State) : Prop := Memory.wf s.mem = true ∧ FaultRecordOk s

/-- A state of a safe run: no fatal condition has been met (70_reset_and_hazards.md R255: Halted is always a fault). -/
def Safe (s : State) : Prop := s.runState = .running

/-- The end of a run, by the spec's convention: Running on a Jump to itself (70_reset_and_hazards.md R255). -/
def EndOfRun (s : State) : Prop := s.runState = .running ∧ s.fetchWord s.pc = 0x1000 + s.pc.setWidth 16

/-- The sprite that Draw `Vx, Vy, n` reads has a 1 bit for the pixel at column `px`, row `py`: the sprite's left column is
`V[x] mod 64`, its top row `V[y]`, its row `r` is `MEM[I + r]`, and the leftmost pixel of a row is bit 7
(43_display.md R181, R182). -/
def DrawCovers (s : State) (x y n : Nibble) (px py : Nat) : Prop :=
  (s.reg x).toNat % 64 ≤ px ∧ px ≤ (s.reg x).toNat % 64 + 7 ∧
  (s.reg y).toNat ≤ py ∧ py < (s.reg y).toNat + n.toNat ∧
  (s.readByte (s.ireg + BitVec.ofNat 12 (py - (s.reg y).toNat))).getLsbD (7 - (px - (s.reg x).toNat % 64)) = true

/-- What no instruction can read (10_state.md R28, R34, R35, R37; 60_exceptions.md R226) set to its reset value: the
sound timer, the two control flags, the fault latches; and the model's own counter of consumed random bytes (log 2), which
only picks the byte of the host's step. -/
def maskUnreadable (s : State) : State :=
  { s with st := 0, displayChanged := false, beepRequested := false, errKind := .none, errWord := 0, errPc := 0,
           randCount := 0 }

/-- No program can tell the states apart by what it reads: they differ at most in what `maskUnreadable` hides and in
stack entries not in use (10_state.md R26). -/
def SameToPrograms (s t : State) : Prop :=
  maskUnreadable t = maskUnreadable { s with stack := t.stack } ∧ ∀ k, k < s.sp.val → t.stack[k]? = s.stack[k]?

/-- What an instruction may write, from the columns "W" of the access table (10_state.md R42), at the state it starts
from. Call and Return may take a fatal condition instead (60_exceptions.md R216); `randCount` is the model's own. -/
def writes (s : State) : Instr → List Part
  | .cls _ => [.pc, .display, .displayChanged]
  | .ret _ => [.sp] ++ faultParts
  | .jp _ | .jpV0 _ => [.pc]
  | .call _ => [.sp, .stackEntry s.sp.val] ++ faultParts
  | .seImm _ _ | .sneImm _ _ | .seReg _ _ _ | .sneReg _ _ _ | .skp _ | .sknp _ => [.pc]
  | .ldImm x _ | .addImm x _ | .ldReg x _ | .orReg x _ | .andReg x _ | .xorReg x _ | .ldVxDt x | .ldVxK x =>
    [.pc, .reg x]
  | .addReg x _ | .subReg x _ | .subnReg x _ | .shr x _ | .shl x _ => [.pc, .reg 15, .reg x]
  | .rnd x _ => [.pc, .reg x, .randCount]
  | .ldI _ | .ldF _ => [.pc, .index]
  | .addI _ => [.pc, .index, .reg 15]
  | .ldB _ => [.pc] ++ bytesFrom s.ireg 3
  | .ldMemVx x => [.pc, .index] ++ bytesFrom s.ireg (x.toNat + 1)
  | .ldVxMem x => [.pc, .index] ++ regsBelow (x.toNat + 1)
  | .drw _ _ _ => [.pc, .reg 15, .display, .displayChanged]
  | .ldDtVx _ => [.pc, .dt]
  | .ldStVx _ => [.pc, .st]

end Sys2Proof.Safety
end

