-- ==== Sys2Proof/Certificates/Slice0/Obligations.lean ====
section
/-! DEFINITION. The statements for the provers, each from the rules of spec/ its docstring names. `pc + 2` and the like
are sums of PC_WIDTH bits, which wrap modulo 4096 (10_state.md R24; the parameters' values are `params`). `OnlyChanges` is the frame: everything not listed, every byte
of memory included, is as before. -/

open Sys2Proof Sys2Proof.Machine Sys2Proof.Safety

/-! ### Encoding -/

/-- 30_encoding.md section 3: for every instruction the parameters admit, with every operand, decoding its word gives it
back. -/
def Obligations.DecodeOfEncodeIsTheInstruction : Prop :=
  ∀ (p : Params) (i : Instr), i.presentIn p = true → decodeWith p (encode i) = .ok i

/-- 30_encoding.md R91, R99: no word loses a bit in decoding, and nothing absent is decoded. -/
def Obligations.EncodeOfDecodeIsTheWord : Prop :=
  ∀ (p : Params) (w : Word) (i : Instr), decodeWith p w = .ok i → encode i = w ∧ i.presentIn p = true

/-- 30_encoding.md R94, R95 (numbers: the spec's decision D11): a word decodes to an instruction of the row it selects,
a word that selects a present row decodes to that row, and a word that selects none is unknown. -/
def Obligations.DecodeFollowsTheOpcodeMap : Prop :=
  ∀ (p : Params) (w : Word),
    (∀ i, decodeWith p w = .ok i → w &&& i.rowMask = i.rowMatch) ∧
    (∀ j : Instr, j.presentIn p = true → w &&& j.rowMask = j.rowMatch →
      ∃ i, decodeWith p w = .ok i ∧ i.rowMask = j.rowMask ∧ i.rowMatch = j.rowMatch) ∧
    ((∀ j : Instr, j.presentIn p = true → w &&& j.rowMask ≠ j.rowMatch) →
      decodeWith p w = .error (.unknownInstruction w))

/-- 30_encoding.md R99: no word selects two rows of the map. -/
def Obligations.NoWordSelectsTwoRows : Prop :=
  ∀ (w : Word) (i j : Instr), w &&& i.rowMask = i.rowMatch → w &&& j.rowMask = j.rowMatch →
    i.rowMask = j.rowMask ∧ i.rowMatch = j.rowMatch

/-- 30_encoding.md R97: the complete list of unknown words, under any parameters. -/
def Obligations.UnknownWordsAreTheListed : Prop :=
  ∀ (p : Params) (w : Word), decodeWith p w = .error (.unknownInstruction w) ↔
    (fieldOp w = 0x0 ∧ fieldKK w ∉ [0xE0, 0xEE]) ∨
    (fieldOp w = 0x8 ∧ fieldN w ∈ [0x8, 0x9, 0xA, 0xB, 0xC, 0xD, 0xF]) ∨
    (fieldOp w = 0xE ∧ fieldKK w ≠ 0xA1 ∧ (fieldKK w ≠ 0x9E ∨ p.hasSkp = false)) ∨
    (fieldOp w = 0xF ∧ fieldKK w ∉ [0x07, 0x0A, 0x15, 0x18, 0x1E, 0x29, 0x33, 0x55, 0x65]) ∨
    (fieldOp w = 0x9 ∧ p.hasSneReg = false) ∨
    (fieldOp w = 0xB ∧ p.hasJpV0 = false)

/-- 30_encoding.md section 4 (R98; the spec's decision D9): the unused bits do not change what runs. -/
def Obligations.UnusedBitsAreIgnored : Prop :=
  ∀ (x y u : Nibble) (s : State),
    decode (wordXKK 0x0 u 0xE0) = .ok (.cls u) ∧ exec (.cls u) s = exec (.cls 0) s ∧
    decode (wordXKK 0x0 u 0xEE) = .ok (.ret u) ∧ (s.sp.val ≠ 0 → exec (.ret u) s = exec (.ret 0) s) ∧
    decode (wordXYN 0x5 x y u) = .ok (.seReg x y u) ∧ exec (.seReg x y u) s = exec (.seReg x y 0) s ∧
    decode (wordXYN 0x9 x y u) = .ok (.sneReg x y u) ∧ exec (.sneReg x y u) s = exec (.sneReg x y 0) s ∧
    decode (wordXYN 0x8 x u 0x6) = .ok (.shr x u) ∧ exec (.shr x u) s = exec (.shr x 0) s ∧
    decode (wordXYN 0x8 x u 0xE) = .ok (.shl x u) ∧ exec (.shl x u) s = exec (.shl x 0) s

/-- 30_encoding.md R95, words written out from the map, and one that is unknown with this hardware's parameters (R97). -/
def Obligations.HandWrittenWordsDecode : Prop :=
  decode 0x00E0 = .ok (.cls 0) ∧ decode 0x220E = .ok (.call 0x20E) ∧ decode 0x332A = .ok (.seImm 3 0x2A) ∧
  decode 0x8124 = .ok (.addReg 1 2) ∧ decode 0xA2F0 = .ok (.ldI 0x2F0) ∧ decode 0xC30F = .ok (.rnd 3 0x0F) ∧
  decode 0xD012 = .ok (.drw 0 1 2) ∧ decode 0xE5A1 = .ok (.sknp 5) ∧ decode 0xF255 = .ok (.ldMemVx 2) ∧
  decode 0xE59E = .error (.unknownInstruction 0xE59E)

/-! ### Fetch and step -/

/-- 20_memory.md R61: fetch is big-endian, and the second byte's address wraps. -/
def Obligations.FetchIsBigEndian : Prop :=
  ∀ (s : State) (a : PcAddr),
    (s.fetchWord a).toNat = (s.readByte (memAddr a)).toNat * 256 + (s.readByte (memAddr a + 1)).toNat

/-- 60_exceptions.md R211: a Running step whose word decodes is exactly that instruction's execution; `exec` starts with
PC at the instruction and makes the advance itself. -/
def Obligations.StepRunsTheDecodedInstruction : Prop :=
  ∀ (s : State) (i : Instr), s.runState = .running → decode (s.fetchWord s.pc) = .ok i → step s = exec i s

/-- 20_memory.md section 9 (R72, derived there): an instruction stored at PC is the one the next step runs. The placing is
the model's `withFetchWord` (log 8, a DESIGN CHOICE): it stands for a load, and also sets the run state to Running, without
which a Halted machine would run nothing (60_exceptions.md R229). -/
def Obligations.StoredInstructionRunsNext : Prop :=
  ∀ (s : State) (w : Word) (i : Instr), decode w = .ok i →
    (s.withFetchWord 16 w.toNat).fetchWord (s.withFetchWord 16 w.toNat).pc = w ∧
    step (s.withFetchWord 16 w.toNat) = exec i (s.withFetchWord 16 w.toNat)

/-- 30_encoding.md R97: a step on an unknown word halts: Halted, nothing executed, PC unchanged, the record written
(60_exceptions.md R216). -/
def Obligations.StepOnUnknownWordHalts : Prop :=
  ∀ (s : State) (e : DecodeError), s.runState = .running → decode (s.fetchWord s.pc) = .error e →
    ∃ t, step s = .next t ∧ OnlyChanges faultParts s t ∧ t.pc = s.pc ∧ t.runState = .halted ∧
      t.errKind = .unknownInstruction ∧ t.errKindOut = 1 ∧ t.errWord = s.fetchWord s.pc ∧ t.errPc = s.pc

/-- 60_exceptions.md R215, R216: the machine never stops outside the spec's own Halted state: every instruction, every
step and every event answers a next state from every state. -/
def Obligations.EverythingAnswersANextState : Prop :=
  (∀ (i : Instr) (s : State), ∃ t, exec i s = .next t) ∧ (∀ s : State, ∃ t, step s = .next t) ∧
  (∀ (e : Event) (s : State), ∃ t, applyEvent e s = .next t)

/-- 41_alu.md R153 with log 2 (a DESIGN CHOICE of the model): the host's step is the step event whose random byte is the
next free one. -/
def Obligations.StepIsTheStepEventWithAFreeByte : Prop :=
  ∀ s : State, step s = stepEvent (Config.randIn s.randCount) s

/-- 60_exceptions.md section 4 (R216, the spec's decision D7): a step that halts the machine changes nothing but the run
state and the record, and records its own word and address. -/
def Obligations.FaultsArePrecise : Prop :=
  ∀ (s t : State), s.runState = .running → step s = .next t → t.runState = .halted →
    OnlyChanges [.runState, .errKind, .errWord, .errPc] s t ∧ t.mem = s.mem ∧ t.errKind ≠ .none ∧
    t.errKind ≠ .romTooLarge ∧ t.errWord = s.fetchWord s.pc ∧ t.errPc = s.pc

/-! ### Invariants -/

/-- 10_state.md R37, R40, with the canonical form of memory (log 3): reset meets the invariant. -/
def Obligations.ResetMeetsTheInvariant : Prop := Inv State.reset

/-- 60_exceptions.md R216, R217, R229, with the canonical form of memory, which is the model's own (log 3, a DESIGN
CHOICE): every step keeps the invariant, from every state that has it. -/
def Obligations.StepKeepsTheInvariant : Prop := ∀ (s t : State), Inv s → step s = .next t → Inv t

/-- 60_exceptions.md R217, R229, R230, with the canonical form of memory, which is the model's own (log 3, a DESIGN
CHOICE): every event keeps the invariant, whatever order the environment chooses. -/
def Obligations.EventsKeepTheInvariant : Prop :=
  ∀ (es : List Event) (s t : State), Inv s → applyEvents es s = .next t → Inv t

/-! ### Reset -/

/-- 10_state.md R40, 70_reset_and_hazards.md R250: what the `reset` event leaves, from either run state; and the machine's
first state has the same values (R251). -/
def Obligations.ResetLeavesTheSpecifiedState : Prop :=
  ∀ (s t : State), applyEvent .reset s = .next t ∨ t = State.reset →
    (∀ r, t.reg r = 0) ∧ t.ireg = 0 ∧ t.pc = 0x200 ∧ t.sp.val = 0 ∧ (∀ k, k < params.stackDepth → t.stack[k]? = some 0) ∧
    t.dt = 0 ∧ t.st = 0 ∧ (∀ a : Addr, a.toNat < 0x50 → some (t.readByte a) = params.font[a.toNat]?) ∧
    (∀ a : Addr, 0x50 ≤ a.toNat → t.readByte a = 0) ∧ (∀ px py, t.pixel px py = false) ∧
    (∀ k, t.keyOn k = false) ∧ t.displayChanged = false ∧ t.beepRequested = false ∧ t.runState = .running ∧
    t.errKind.code = 0 ∧ t.errWord = 0 ∧ t.errPc = 0

/-- 70_reset_and_hazards.md section 2 (R254, derived there): with no ROM loaded the first step halts on word 0. -/
def Obligations.FirstStepWithoutAProgramHalts : Prop :=
  ∃ t, step State.reset = .next t ∧ t.halted = true ∧ t.errKindOut = 1 ∧ t.errWord = 0x0000 ∧ t.errPc = 0x200 ∧
    t.pc = 0x200 ∧ OnlyChanges faultParts State.reset t ∧ step t = .next t

/-! ### Control transfer (40_flow.md) -/

/-- R120: with an entry in use, Return takes the last pushed address into PC, as it is. -/
def Obligations.ReturnPopsIntoPc : Prop :=
  ∀ (u : Nibble) (s : State), 0 < s.sp.val →
    ∃ t, exec (.ret u) s = .next t ∧ OnlyChanges [.pc, .sp] s t ∧ t.sp.val = s.sp.val - 1 ∧
      some t.pc = s.stack[s.sp.val - 1]?

/-- R120, with the entry of 60_exceptions.md R216 (the spec's decision D7): with none in use, Return halts and changes
nothing else. -/
def Obligations.ReturnOnEmptyStackHalts : Prop :=
  ∀ (u : Nibble) (s : State), s.sp.val = 0 →
    ∃ t, exec (.ret u) s = .next t ∧ OnlyChanges [.runState, .errKind, .errWord, .errPc] s t ∧
      t.runState = .halted ∧ t.errKind.code = 3 ∧ t.errWord = wordXKK 0x0 u 0xEE ∧ t.errPc = s.pc

/-- R121. -/
def Obligations.JumpSetsPc : Prop :=
  ∀ (nnn : Addr) (s : State), ∃ t, exec (.jp nnn) s = .next t ∧ OnlyChanges [.pc] s t ∧
    t.pc.toNat = nnn.toNat

/-- R122: with an entry free, Call pushes the address of the instruction after it. -/
def Obligations.CallPushesTheReturnAddress : Prop :=
  ∀ (nnn : Addr) (s : State), s.sp.val < params.stackDepth →
    ∃ t, exec (.call nnn) s = .next t ∧ OnlyChanges [.pc, .sp, .stackEntry s.sp.val] s t ∧ t.pc.toNat = nnn.toNat ∧
      t.sp.val = s.sp.val + 1 ∧ t.stack[s.sp.val]? = some (s.pc + 2)

/-- R122, with the entry of 60_exceptions.md R216 (the spec's decision D7): with the stack full, Call halts and pushes
nothing. -/
def Obligations.CallOnFullStackHalts : Prop :=
  ∀ (nnn : Addr) (s : State), s.sp.val = params.stackDepth →
    ∃ t, exec (.call nnn) s = .next t ∧ OnlyChanges [.runState, .errKind, .errWord, .errPc] s t ∧
      t.runState = .halted ∧ t.errKind.code = 2 ∧ t.errWord = wordNNN 0x2 nnn ∧ t.errPc = s.pc

/-- 10_state.md R25: a Return right after a Call comes back behind the call site; only the entry used keeps a trace. -/
def Obligations.CallThenReturnComesBack : Prop :=
  ∀ (nnn : Addr) (u : Nibble) (s : State), s.sp.val < params.stackDepth →
    ∃ t, exec (.call nnn) s = .next t ∧ ∃ v, exec (.ret u) t = .next v ∧
      OnlyChanges [.pc, .stackEntry s.sp.val] s v ∧ v.pc = s.pc + 2

/-- R124, R125, R126. -/
def Obligations.SkipsCompareRegisters : Prop :=
  ∀ (x y u : Nibble) (kk : Byte) (s : State),
    (∃ t, exec (.seImm x kk) s = .next t ∧ OnlyChanges [.pc] s t ∧
      t.pc = if s.reg x = kk then s.pc + 4 else s.pc + 2) ∧
    (∃ t, exec (.sneImm x kk) s = .next t ∧ OnlyChanges [.pc] s t ∧
      t.pc = if s.reg x = kk then s.pc + 2 else s.pc + 4) ∧
    (∃ t, exec (.seReg x y u) s = .next t ∧ OnlyChanges [.pc] s t ∧
      t.pc = if s.reg x = s.reg y then s.pc + 4 else s.pc + 2)

/-- 40_flow.md R123, R127 (the spec's decision D10, semantics from general knowledge): the two optional instructions
present by default. -/
def Obligations.JumpV0AndSkipNeqReg : Prop :=
  ∀ (nnn : Addr) (x y u : Nibble) (s : State),
    (∃ t, exec (.jpV0 nnn) s = .next t ∧ OnlyChanges [.pc] s t ∧ t.pc.toNat = (nnn.toNat + (s.reg 0).toNat) % 4096) ∧
    (∃ t, exec (.sneReg x y u) s = .next t ∧ OnlyChanges [.pc] s t ∧
      t.pc = if s.reg x = s.reg y then s.pc + 2 else s.pc + 4)

/-! ### Registers and arithmetic (41_alu.md) -/

/-- R140, R141: VF is untouched unless it is `V[x]`. -/
def Obligations.LoadAndAddImmediate : Prop :=
  ∀ (x : Nibble) (kk : Byte) (s : State),
    (∃ t, exec (.ldImm x kk) s = .next t ∧ OnlyChanges [.pc, .reg x] s t ∧ t.pc = s.pc + 2 ∧ t.reg x = kk) ∧
    (∃ t, exec (.addImm x kk) s = .next t ∧ OnlyChanges [.pc, .reg x] s t ∧ t.pc = s.pc + 2 ∧
      (t.reg x).toNat = ((s.reg x).toNat + kk.toNat) % 256)

/-- R143, R144, R145, bit by bit, and assign (R142): VF is untouched unless it is `V[x]`. -/
def Obligations.AssignAndBitwise : Prop :=
  ∀ (x y : Nibble) (s : State),
    (∃ t, exec (.ldReg x y) s = .next t ∧ OnlyChanges [.pc, .reg x] s t ∧ t.pc = s.pc + 2 ∧ t.reg x = s.reg y) ∧
    (∃ t, exec (.orReg x y) s = .next t ∧ OnlyChanges [.pc, .reg x] s t ∧ t.pc = s.pc + 2 ∧
      ∀ k, k < 8 → (t.reg x).getLsbD k = ((s.reg x).getLsbD k || (s.reg y).getLsbD k)) ∧
    (∃ t, exec (.andReg x y) s = .next t ∧ OnlyChanges [.pc, .reg x] s t ∧ t.pc = s.pc + 2 ∧
      ∀ k, k < 8 → (t.reg x).getLsbD k = ((s.reg x).getLsbD k && (s.reg y).getLsbD k)) ∧
    (∃ t, exec (.xorReg x y) s = .next t ∧ OnlyChanges [.pc, .reg x] s t ∧ t.pc = s.pc + 2 ∧
      ∀ k, k < 8 → (t.reg x).getLsbD k = ((s.reg x).getLsbD k ^^ (s.reg y).getLsbD k))

/-- R146, but for VF as destination (VfAsDestinationKeepsTheResult). -/
def Obligations.AddSetsCarry : Prop :=
  ∀ (x y : Nibble) (s : State), x ≠ 15 →
    ∃ t, exec (.addReg x y) s = .next t ∧ OnlyChanges [.pc, .reg 15, .reg x] s t ∧ t.pc = s.pc + 2 ∧
      (t.reg x).toNat = ((s.reg x).toNat + (s.reg y).toNat) % 256 ∧
      t.reg 15 = if (s.reg x).toNat + (s.reg y).toNat > 255 then 1 else 0

/-- R147, R148, but for VF as destination: VF is 1 when there is no borrow. -/
def Obligations.SubtractionsSetNoBorrow : Prop :=
  ∀ (x y : Nibble) (s : State), x ≠ 15 →
    (∃ t, exec (.subReg x y) s = .next t ∧ OnlyChanges [.pc, .reg 15, .reg x] s t ∧ t.pc = s.pc + 2 ∧
      ((t.reg x).toNat : Int) = ((s.reg x).toNat - (s.reg y).toNat : Int) % 256 ∧
      t.reg 15 = if (s.reg x).toNat ≥ (s.reg y).toNat then 1 else 0) ∧
    (∃ t, exec (.subnReg x y) s = .next t ∧ OnlyChanges [.pc, .reg 15, .reg x] s t ∧ t.pc = s.pc + 2 ∧
      ((t.reg x).toNat : Int) = ((s.reg y).toNat - (s.reg x).toNat : Int) % 256 ∧
      t.reg 15 = if (s.reg y).toNat ≥ (s.reg x).toNat then 1 else 0)

/-- R149, R150, but for VF as destination: the lost bit goes to VF, and `V[y]` plays no part. -/
def Obligations.ShiftsMoveByOneBit : Prop :=
  ∀ (x y : Nibble) (s : State), x ≠ 15 →
    (∃ t, exec (.shr x y) s = .next t ∧ OnlyChanges [.pc, .reg 15, .reg x] s t ∧ t.pc = s.pc + 2 ∧
      (t.reg x).toNat = (s.reg x).toNat / 2 ∧ (t.reg 15).toNat = (s.reg x).toNat % 2) ∧
    (∃ t, exec (.shl x y) s = .next t ∧ OnlyChanges [.pc, .reg 15, .reg x] s t ∧ t.pc = s.pc + 2 ∧
      (t.reg x).toNat = (2 * (s.reg x).toNat) % 256 ∧ (t.reg 15).toNat = (s.reg x).toNat / 128)

/-- 70_reset_and_hazards.md section 4 (R258, the spec's decision D12): with VF as destination the result stays and the
flag is lost. -/
def Obligations.VfAsDestinationKeepsTheResult : Prop :=
  ∀ (y : Nibble) (s : State),
    (∃ t, exec (.addReg 15 y) s = .next t ∧ OnlyChanges [.pc, .reg 15] s t ∧ t.pc = s.pc + 2 ∧
      (t.reg 15).toNat = ((s.reg 15).toNat + (s.reg y).toNat) % 256) ∧
    (∃ t, exec (.subReg 15 y) s = .next t ∧ OnlyChanges [.pc, .reg 15] s t ∧ t.pc = s.pc + 2 ∧
      ((t.reg 15).toNat : Int) = ((s.reg 15).toNat - (s.reg y).toNat : Int) % 256) ∧
    (∃ t, exec (.subnReg 15 y) s = .next t ∧ OnlyChanges [.pc, .reg 15] s t ∧ t.pc = s.pc + 2 ∧
      ((t.reg 15).toNat : Int) = ((s.reg y).toNat - (s.reg 15).toNat : Int) % 256) ∧
    (∃ t, exec (.shr 15 y) s = .next t ∧ OnlyChanges [.pc, .reg 15] s t ∧ t.pc = s.pc + 2 ∧
      (t.reg 15).toNat = (s.reg 15).toNat / 2) ∧
    (∃ t, exec (.shl 15 y) s = .next t ∧ OnlyChanges [.pc, .reg 15] s t ∧ t.pc = s.pc + 2 ∧
      (t.reg 15).toNat = (2 * (s.reg 15).toNat) % 256)

/-- R153 (the byte is an input, decision D19; the counter that picks it is log 2, a DESIGN CHOICE of the model): whatever
byte is supplied, `V[x]` takes its bits under `kk`; the step event supplies it as its argument, `exec` the next free
one. -/
def Obligations.RandomMasksTheSuppliedByte : Prop :=
  ∀ (r : Byte) (x : Nibble) (kk : Byte) (s : State),
    (∃ t, execWithRand r (.rnd x kk) s = .next t ∧ OnlyChanges [.pc, .reg x, .randCount] s t ∧ t.pc = s.pc + 2 ∧
      t.randCount = s.randCount + 1 ∧ ∀ k, k < 8 → (t.reg x).getLsbD k = (r.getLsbD k && kk.getLsbD k)) ∧
    exec (.rnd x kk) s = execWithRand (Config.randIn s.randCount) (.rnd x kk) s ∧
    (∃ t, exec (.rnd x kk) s = .next t ∧ OnlyChanges [.pc, .reg x, .randCount] s t ∧ t.pc = s.pc + 2 ∧
      t.reg x &&& ~~~kk = 0)

/-! ### Index register and memory (42_index_memory.md) -/

/-- R160, R162: the whole byte is multiplied. -/
def Obligations.LoadIndexAndFontAddress : Prop :=
  ∀ (nnn : Addr) (x : Nibble) (s : State),
    (∃ t, exec (.ldI nnn) s = .next t ∧ OnlyChanges [.pc, .index] s t ∧ t.pc = s.pc + 2 ∧ t.ireg = nnn) ∧
    (∃ t, exec (.ldF x) s = .next t ∧ OnlyChanges [.pc, .index] s t ∧ t.pc = s.pc + 2 ∧
      t.ireg.toNat = 5 * (s.reg x).toNat)

/-- R161: VF takes the carry out of twelve bits; with `x = 15` the addend is the old VF. -/
def Obligations.AddIndexSetsCarry : Prop :=
  ∀ (x : Nibble) (s : State),
    ∃ t, exec (.addI x) s = .next t ∧ OnlyChanges [.pc, .index, .reg 15] s t ∧ t.pc = s.pc + 2 ∧
      t.ireg.toNat = (s.ireg.toNat + (s.reg x).toNat) % 4096 ∧
      t.reg 15 = if s.ireg.toNat + (s.reg x).toNat > 0xFFF then 1 else 0

/-- R163: hundreds, tens, units at `I`, `I+1`, `I+2`, the addresses the meaning stores to; every other byte as before. -/
def Obligations.BcdStoresThreeDigits : Prop :=
  ∀ (x : Nibble) (s : State),
    ∃ t, exec (.ldB x) s = .next t ∧ OnlyChanges ([.pc] ++ bytesFrom s.ireg 3) s t ∧ t.pc = s.pc + 2 ∧
      (t.readByte s.ireg).toNat = (s.reg x).toNat / 100 ∧
      (t.readByte (s.ireg + 1)).toNat = (s.reg x).toNat / 10 % 10 ∧
      (t.readByte (s.ireg + 2)).toNat = (s.reg x).toNat % 10

/-- R164: `V[0]` to `V[x]` at `I`, `I+1`, ..., the addresses the meaning stores to; every other byte as before. -/
def Obligations.RegDumpStoresTheRun : Prop :=
  ∀ (x : Nibble) (s : State),
    ∃ t, exec (.ldMemVx x) s = .next t ∧ OnlyChanges ([.pc, .index] ++ bytesFrom s.ireg (x.toNat + 1)) s t ∧
      t.pc = s.pc + 2 ∧ t.ireg.toNat = (s.ireg.toNat + x.toNat + 1) % 4096 ∧
      ∀ r : Nibble, r.toNat ≤ x.toNat → t.readByte (s.ireg + r.setWidth 12) = s.reg r

/-- R165: `V[0]` to `V[x]` from `I`, `I+1`, ...; the registers above `x` and all memory as before. -/
def Obligations.RegLoadLoadsTheRun : Prop :=
  ∀ (x : Nibble) (s : State),
    ∃ t, exec (.ldVxMem x) s = .next t ∧ OnlyChanges ([.pc, .index] ++ regsBelow (x.toNat + 1)) s t ∧
      t.pc = s.pc + 2 ∧ t.ireg.toNat = (s.ireg.toNat + x.toNat + 1) % 4096 ∧
      (∀ r : Nibble, r.toNat ≤ x.toNat → t.reg r = s.readByte (s.ireg + r.setWidth 12)) ∧
      (∀ r : Nibble, x.toNat < r.toNat → t.reg r = s.reg r)

/-- R165: a dump, then a load from the same `I` whatever the registers hold by then, restores the registers dumped. -/
def Obligations.DumpThenLoadRestores : Prop :=
  ∀ (x : Nibble) (s t s2 : State), exec (.ldMemVx x) s = .next t → s2.ireg = s.ireg →
    (∀ a, s2.readByte a = t.readByte a) →
    ∃ u, exec (.ldVxMem x) s2 = .next u ∧ (∀ r : Nibble, r.toNat ≤ x.toNat → u.reg r = s.reg r) ∧
      t.ireg = s.ireg + (x.setWidth 12 + 1) ∧ u.ireg = t.ireg

/-! ### Display (43_display.md) -/

/-- R180: VF is not written, and the flag is raised whatever the buffer held. -/
def Obligations.ClearBlanksTheDisplay : Prop :=
  ∀ (u : Nibble) (s : State),
    ∃ t, exec (.cls u) s = .next t ∧ OnlyChanges [.pc, .display, .displayChanged] s t ∧ t.pc = s.pc + 2 ∧
      t.displayChanged = true ∧ ∀ px py, px < 64 → py < 32 → t.pixel px py = false

/-- R181, with the bit order of R182 (the spec's decision D15): each pixel of the grid is inverted exactly when the sprite covers it; VF says whether a lit pixel was covered;
`I` and memory stay. -/
def Obligations.DrawXorsTheSprite : Prop :=
  ∀ (x y n : Nibble) (s : State),
    ∃ t, exec (.drw x y n) s = .next t ∧ OnlyChanges [.pc, .reg 15, .display, .displayChanged] s t ∧
      t.pc = s.pc + 2 ∧ t.displayChanged = true ∧
      (∀ px py, px < 64 → py < 32 → DrawCovers s x y n px py → t.pixel px py = !s.pixel px py) ∧
      (∀ px py, px < 64 → py < 32 → ¬ DrawCovers s x y n px py → t.pixel px py = s.pixel px py) ∧
      ((∃ px py, px < 64 ∧ py < 32 ∧ DrawCovers s x y n px py ∧ s.pixel px py = true) → t.reg 15 = 1) ∧
      ((¬ ∃ px py, px < 64 ∧ py < 32 ∧ DrawCovers s x y n px py ∧ s.pixel px py = true) → t.reg 15 = 0)

/-- 43_display.md R183 items 1 and 5 (the spec's decision D16): a row origin of 32 or more, or no rows, draws nothing, and
still clears VF and raises the flag. -/
def Obligations.DrawOffTheGridOrWithNoRows : Prop :=
  ∀ (x y n : Nibble) (s : State), 32 ≤ (s.reg y).toNat ∨ n = 0 →
    ∃ t, exec (.drw x y n) s = .next t ∧ OnlyChanges [.pc, .reg 15, .displayChanged] s t ∧ t.pc = s.pc + 2 ∧
      t.reg 15 = 0 ∧ t.displayChanged = true

/-- 43_display.md section on double draw (R184, derived there): the same sprite drawn again at the same place, by the same
register fields or by others that hold the values (as a program needs when `x` or `y` is 15, since the first draw changes
VF), restores the buffer, and the second draw reports a collision exactly when the first lit a pixel. -/
def Obligations.DrawingTwiceRestores : Prop :=
  ∀ (x y x' y' n : Nibble) (s t s2 : State), exec (.drw x y n) s = .next t → s2.disp = t.disp → s2.ireg = s.ireg →
    (∀ r, r < n.toNat → s2.readByte (addrPlus s.ireg r) = s.readByte (addrPlus s.ireg r)) →
    (s2.reg x').toNat % 64 = (s.reg x).toNat % 64 → s2.reg y' = s.reg y →
    ∃ u, exec (.drw x' y' n) s2 = .next u ∧ u.disp = s.disp ∧
      (u.reg 15 = 1 ↔ ∃ px py, px < 64 ∧ py < 32 ∧ s.pixel px py = false ∧ t.pixel px py = true) ∧
      (u.reg 15 = 0 ∨ u.reg 15 = 1)

/-! ### Keys and timers (44_keys_timers.md) -/

/-- 44_keys_timers.md R190, R191, R196 (the spec's decisions D10, D17): the key is the low four bits of `V[x]`'s value. -/
def Obligations.KeySkipsTestTheSelectedKey : Prop :=
  ∀ (x k : Nibble) (s : State), k.toNat = (s.reg x).toNat % 16 →
    (∃ t, exec (.sknp x) s = .next t ∧ OnlyChanges [.pc] s t ∧
      t.pc = if s.keyOn k = true then s.pc + 2 else s.pc + 4) ∧
    (∃ t, exec (.skp x) s = .next t ∧ OnlyChanges [.pc] s t ∧
      t.pc = if s.keyOn k = true then s.pc + 4 else s.pc + 2)

/-- 44_keys_timers.md R192, R197 (the spec's decision D18): the least pressed key is stored. -/
def Obligations.WaitKeyStoresTheLeastPressedKey : Prop :=
  ∀ (x k : Nibble) (s : State), s.keyOn k = true → (∀ j : Nibble, s.keyOn j = true → k.toNat ≤ j.toNat) →
    ∃ t, exec (.ldVxK x) s = .next t ∧ OnlyChanges [.pc, .reg x] s t ∧ t.pc = s.pc + 2 ∧ (t.reg x).toNat = k.toNat

/-- R192: with no key pressed nothing changes, PC included. -/
def Obligations.WaitKeyWithNoKeyRunsAgain : Prop :=
  ∀ (x : Nibble) (s : State), (∀ k, s.keyOn k = false) → exec (.ldVxK x) s = .next s

/-- R193, R194. -/
def Obligations.DelayTimerInstructionsMoveAByte : Prop :=
  ∀ (x : Nibble) (s : State),
    (∃ t, exec (.ldVxDt x) s = .next t ∧ OnlyChanges [.pc, .reg x] s t ∧ t.pc = s.pc + 2 ∧ t.reg x = s.dt) ∧
    (∃ t, exec (.ldDtVx x) s = .next t ∧ OnlyChanges [.pc, .dt] s t ∧ t.pc = s.pc + 2 ∧ t.dt = s.reg x)

/-- R195, with 60_exceptions.md R222 (the spec's decision D21): Set-sound loads ST and requests no beep, whatever it
writes; the request is raised by the tick that takes ST from 1 to 0. -/
def Obligations.SetSoundRequestsNoBeep : Prop :=
  ∀ (x : Nibble) (s : State),
    ∃ t, exec (.ldStVx x) s = .next t ∧ OnlyChanges [.pc, .st] s t ∧ t.pc = s.pc + 2 ∧ t.st = s.reg x ∧
      t.beepRequested = s.beepRequested ∧
      (t.runState = .running → ∃ v, applyEvent .tick t = .next v ∧
        v.beepRequested = (s.beepRequested || decide ((s.reg x).toNat = 1)))

/-! ### Events (60_exceptions.md, 70_reset_and_hazards.md) -/

/-- R221, R222: one tick in Running; the decrement of ST from 1 to 0 requests a beep. -/
def Obligations.TickCountsBothTimers : Prop :=
  ∀ s : State, s.runState = .running →
    ∃ t, applyEvent .tick s = .next t ∧ OnlyChanges [.dt, .st, .beepRequested] s t ∧
      t.dt.toNat = s.dt.toNat - 1 ∧ t.st.toNat = s.st.toNat - 1 ∧
      t.beepRequested = (s.beepRequested || decide (s.st.toNat = 1))

/-- 70_reset_and_hazards.md R262: `n` ticks take each timer down by `n`, stopping at 0. -/
def Obligations.ManyTicksCountDown : Prop :=
  ∀ (n : Nat) (s : State), s.runState = .running →
    ∃ t, applyEvents (List.replicate n .tick) s = .next t ∧ OnlyChanges [.dt, .st, .beepRequested] s t ∧
      t.dt.toNat = s.dt.toNat - n ∧ t.st.toNat = s.st.toNat - n ∧
      t.beepRequested = (s.beepRequested || decide (0 < s.st.toNat ∧ s.st.toNat ≤ n))

/-- R212, R213, in either run state. -/
def Obligations.KeyAndAcknowledgeEvents : Prop :=
  ∀ (k : Nibble) (s : State),
    (∃ t, applyEvent (.keyDown k) s = .next t ∧ OnlyChanges [.key k] s t ∧ t.keyOn k = true) ∧
    (∃ t, applyEvent (.keyUp k) s = .next t ∧ OnlyChanges [.key k] s t ∧ t.keyOn k = false) ∧
    (∃ t, applyEvent .ackDisplay s = .next t ∧ OnlyChanges [.displayChanged] s t ∧ t.displayChanged = false) ∧
    (∃ t, applyEvent .ackBeep s = .next t ∧ OnlyChanges [.beepRequested] s t ∧ t.beepRequested = false)

/-- R252, in Running, with a program that fits: its bytes at 0x200 upward, every other byte and register as before. -/
def Obligations.RomLoadCopiesTheProgram : Prop :=
  ∀ (rom : List Byte) (s : State), s.runState = .running → rom.length ≤ 3584 →
    ∃ t, applyEvent (.romLoad rom) s = .next t ∧ OnlyChanges (bytesFrom 0x200 rom.length) s t ∧
      ∀ j, j < rom.length → some (t.readByte (0x200 + BitVec.ofNat 12 j)) = rom[j]?

/-- 60_exceptions.md R230: a program that does not fit writes no byte and halts. -/
def Obligations.RomTooLargeHalts : Prop :=
  ∀ (rom : List Byte) (s : State), s.runState = .running → 3584 < rom.length →
    ∃ t, applyEvent (.romLoad rom) s = .next t ∧ OnlyChanges [.runState, .errKind, .errWord, .errPc] s t ∧
      t.runState = .halted ∧ t.errKind.code = 4 ∧ t.errWord = 0 ∧ t.errPc = s.pc

/-- 60_exceptions.md section 11 (R229, the spec's decision D26): in Halted, step, tick and load change nothing. -/
def Obligations.HaltedIgnoresStepTickAndLoad : Prop :=
  ∀ (r : Byte) (rom : List Byte) (s : State), s.runState = .halted →
    step s = .next s ∧ applyEvent (.step r) s = .next s ∧ applyEvent .tick s = .next s ∧
    applyEvent (.romLoad rom) s = .next s

/-- 60_exceptions.md R219, R217: no sequence of events without a reset leaves Halted or touches the fault record. -/
def Obligations.OnlyResetLeavesHalted : Prop :=
  ∀ (es : List Event) (s t : State), s.runState = .halted → Event.reset ∉ es → applyEvents es s = .next t →
    t.runState = .halted ∧ t.errKind = s.errKind ∧ t.errWord = s.errWord ∧ t.errPc = s.errPc ∧ t.pc = s.pc ∧
    t.mem = s.mem

/-! ### The whole machine -/

/-- 10_state.md section 14 (R42, derived there) with 00_scope.md section 5 (R13): no instruction writes anything but what
the access table lists for it, from any state. So no instruction writes a key, `beep_requested`, or (but for the Draw and
Clear, the stores, the stack and timer instructions) the display, memory, the stack or a timer. -/
def Obligations.InstructionsWriteOnlyWhatTheTableLists : Prop :=
  ∀ (i : Instr) (s t : State), exec i s = .next t → OnlyChanges (writes s i) s t

/-- 10_state.md R26, R28, R34, R35, R37: no step reads the sound timer, the control flags, the fault latches or a stack
entry not in use: given one and the same random byte (the step event's argument), states that differ only there, and in
the model's own counter of consumed bytes (log 2, a DESIGN CHOICE), step to states that differ only there. The host's
step, which takes its byte by that counter, does so when the counters agree, and leaves them agreeing. -/
def Obligations.UnreadableStateIsNeverRead : Prop :=
  ∀ (r : Byte) (s t : State), SameToPrograms s t →
    (∃ s' t', stepEvent r s = .next s' ∧ stepEvent r t = .next t' ∧ SameToPrograms s' t') ∧
    (t.randCount = s.randCount →
      ∃ s' t', step s = .next s' ∧ step t = .next t' ∧ SameToPrograms s' t' ∧ t'.randCount = s'.randCount)

/-- 70_reset_and_hazards.md section 3 (R255, a convention of the spec): at the end of a run a step changes nothing at
all. -/
def Obligations.EndOfRunIsAFixedPoint : Prop := ∀ s : State, EndOfRun s → step s = .next s

/-- 10_state.md R20 with log 3: the parts of the frame statements are the whole state: states with memory in canonical
form that agree in every part are equal. -/
def Obligations.PartsAreTheWholeState : Prop :=
  ∀ (s t : State), Memory.wf s.mem = true → Memory.wf t.mem = true → OnlyChanges [] s t → t = s
end

