-- ==== Sys2Proof/Laws/Decode.lean ====
section
/-! SUPPORT. The fields of an assembled word are the parts it was assembled from, and a word is assembled from its
fields: what proofs about decoding and encoding cite. -/
namespace Sys2Proof

theorem getLsbD_wordXYN (op x y n : Nibble) (i : Nat) : (wordXYN op x y n).getLsbD i =
    if i < 4 then n.getLsbD i else if i < 8 then y.getLsbD (i - 4) else if i < 12 then x.getLsbD (i - 8)
      else op.getLsbD (i - 12) := by
  change BitVec.getLsbD (w := 4 + 4 + 4 + 4) (op ++ x ++ y ++ n) i = _
  rw [BitVec.getLsbD_append, BitVec.getLsbD_append, BitVec.getLsbD_append]
  have h1 : (i - 4 < 4) ↔ i < 8 := by omega
  have h2 : (i - 4 - 4 < 4) ↔ i < 12 := by omega
  have h3 : i - 4 - 4 = i - 8 := by omega
  have h4 : i - 8 - 4 = i - 12 := by omega
  by_cases ha : i < 4
  · simp [ha]
  · by_cases hb : i < 8
    · simp [ha, hb, h1]
    · by_cases hc : i < 12
      · have : i - 8 < 4 := by omega
        simp [ha, hb, h1, h3, hc, this]
      · have : ¬ i - 8 < 4 := by omega
        simp [ha, hb, h1, h3, hc, h4, this]

/-- A family's immediate byte is two nibbles, `y ++ n` (30_encoding.md R91). -/
theorem wordXKK_eq (op x : Nibble) (kk : Byte) :
    wordXKK op x kk = wordXYN op x (kk.extractLsb' 4 4) (kk.extractLsb' 0 4) := by
  apply BitVec.eq_of_getLsbD_eq
  intro i hi
  rw [getLsbD_wordXYN]
  change BitVec.getLsbD (w := 4 + 4 + 8) (op ++ x ++ kk) i = _
  rw [BitVec.getLsbD_append, BitVec.getLsbD_append]
  interval_cases i <;> simp

/-- The address field is three nibbles, `x ++ y ++ n` (30_encoding.md R91). -/
theorem wordNNN_eq (op : Nibble) (nnn : Addr) : wordNNN op nnn =
    wordXYN op (nnn.extractLsb' 8 4) (nnn.extractLsb' 4 4) (nnn.extractLsb' 0 4) := by
  apply BitVec.eq_of_getLsbD_eq
  intro i hi
  rw [getLsbD_wordXYN]
  change BitVec.getLsbD (w := 4 + 12) (op ++ nnn) i = _
  rw [BitVec.getLsbD_append]
  interval_cases i <;> simp

@[simp] theorem fieldOp_wordXYN (op x y n : Nibble) : fieldOp (wordXYN op x y n) = op := by
  apply BitVec.eq_of_getLsbD_eq
  intro i hi
  simp only [fieldOp, BitVec.getLsbD_extractLsb', getLsbD_wordXYN]
  interval_cases i <;> simp

@[simp] theorem fieldX_wordXYN (op x y n : Nibble) : fieldX (wordXYN op x y n) = x := by
  apply BitVec.eq_of_getLsbD_eq
  intro i hi
  simp only [fieldX, BitVec.getLsbD_extractLsb', getLsbD_wordXYN]
  interval_cases i <;> simp

@[simp] theorem fieldY_wordXYN (op x y n : Nibble) : fieldY (wordXYN op x y n) = y := by
  apply BitVec.eq_of_getLsbD_eq
  intro i hi
  simp only [fieldY, BitVec.getLsbD_extractLsb', getLsbD_wordXYN]
  interval_cases i <;> simp

@[simp] theorem fieldN_wordXYN (op x y n : Nibble) : fieldN (wordXYN op x y n) = n := by
  apply BitVec.eq_of_getLsbD_eq
  intro i hi
  simp only [fieldN, BitVec.getLsbD_extractLsb', getLsbD_wordXYN]
  interval_cases i <;> simp

@[simp] theorem fieldOp_wordXKK (op x : Nibble) (kk : Byte) : fieldOp (wordXKK op x kk) = op := by
  simp [wordXKK_eq]

@[simp] theorem fieldX_wordXKK (op x : Nibble) (kk : Byte) : fieldX (wordXKK op x kk) = x := by
  simp [wordXKK_eq]

@[simp] theorem fieldKK_wordXKK (op x : Nibble) (kk : Byte) : fieldKK (wordXKK op x kk) = kk := by
  apply BitVec.eq_of_getLsbD_eq
  intro i hi
  simp only [fieldKK, BitVec.getLsbD_extractLsb', wordXKK_eq, getLsbD_wordXYN]
  interval_cases i <;> simp

@[simp] theorem fieldOp_wordNNN (op : Nibble) (nnn : Addr) : fieldOp (wordNNN op nnn) = op := by
  simp [wordNNN_eq]

@[simp] theorem fieldNNN_wordNNN (op : Nibble) (nnn : Addr) : fieldNNN (wordNNN op nnn) = nnn := by
  apply BitVec.eq_of_getLsbD_eq
  intro i hi
  simp only [fieldNNN, BitVec.getLsbD_extractLsb', wordNNN_eq, getLsbD_wordXYN]
  interval_cases i <;> simp

/-- A word is its four nibbles. -/
theorem wordXYN_fields (w : Word) : wordXYN (fieldOp w) (fieldX w) (fieldY w) (fieldN w) = w := by
  apply BitVec.eq_of_getLsbD_eq
  intro i hi
  simp only [getLsbD_wordXYN, fieldOp, fieldX, fieldY, fieldN, BitVec.getLsbD_extractLsb']
  interval_cases i <;> simp

theorem wordXKK_fields (w : Word) : wordXKK (fieldOp w) (fieldX w) (fieldKK w) = w := by
  apply BitVec.eq_of_getLsbD_eq
  intro i hi
  simp only [wordXKK_eq, getLsbD_wordXYN, fieldOp, fieldX, fieldKK, BitVec.getLsbD_extractLsb']
  interval_cases i <;> simp

theorem wordNNN_fields (w : Word) : wordNNN (fieldOp w) (fieldNNN w) = w := by
  apply BitVec.eq_of_getLsbD_eq
  intro i hi
  simp only [wordNNN_eq, getLsbD_wordXYN, fieldOp, fieldNNN, BitVec.getLsbD_extractLsb']
  interval_cases i <;> simp

/-- Every primary nibble is one of sixteen. -/
theorem nibble_cases (n : Nibble) : n = 0x0 ∨ n = 0x1 ∨ n = 0x2 ∨ n = 0x3 ∨ n = 0x4 ∨ n = 0x5 ∨ n = 0x6 ∨ n = 0x7 ∨
    n = 0x8 ∨ n = 0x9 ∨ n = 0xA ∨ n = 0xB ∨ n = 0xC ∨ n = 0xD ∨ n = 0xE ∨ n = 0xF := by
  revert n; decide

end Sys2Proof
end

