-- ==== Sys2Proof/Laws/State.lean ====
section
/-! SUPPORT. One lemma per field, and per reading of a field, for every named update of the state, so that no proof
unfolds a record update. Each is true by the update's definition. -/
namespace Sys2Proof.Machine.State

variable (s : State)

/-! ### setReg -/

@[simp] theorem setReg_v (x : Nibble) (b : Byte) : (s.setReg x b).v = s.v.set x.toNat b x.isLt := rfl
@[simp] theorem setReg_ireg (x : Nibble) (b : Byte) : (s.setReg x b).ireg = s.ireg := rfl
@[simp] theorem setReg_pc (x : Nibble) (b : Byte) : (s.setReg x b).pc = s.pc := rfl
@[simp] theorem setReg_stack (x : Nibble) (b : Byte) : (s.setReg x b).stack = s.stack := rfl
@[simp] theorem setReg_sp (x : Nibble) (b : Byte) : (s.setReg x b).sp = s.sp := rfl
@[simp] theorem setReg_dt (x : Nibble) (b : Byte) : (s.setReg x b).dt = s.dt := rfl
@[simp] theorem setReg_st (x : Nibble) (b : Byte) : (s.setReg x b).st = s.st := rfl
@[simp] theorem setReg_mem (x : Nibble) (b : Byte) : (s.setReg x b).mem = s.mem := rfl
@[simp] theorem setReg_disp (x : Nibble) (b : Byte) : (s.setReg x b).disp = s.disp := rfl
@[simp] theorem setReg_key (x : Nibble) (b : Byte) : (s.setReg x b).key = s.key := rfl
@[simp] theorem setReg_displayChanged (x : Nibble) (b : Byte) : (s.setReg x b).displayChanged = s.displayChanged := rfl
@[simp] theorem setReg_beepRequested (x : Nibble) (b : Byte) : (s.setReg x b).beepRequested = s.beepRequested := rfl
@[simp] theorem setReg_runState (x : Nibble) (b : Byte) : (s.setReg x b).runState = s.runState := rfl
@[simp] theorem setReg_errKind (x : Nibble) (b : Byte) : (s.setReg x b).errKind = s.errKind := rfl
@[simp] theorem setReg_errWord (x : Nibble) (b : Byte) : (s.setReg x b).errWord = s.errWord := rfl
@[simp] theorem setReg_errPc (x : Nibble) (b : Byte) : (s.setReg x b).errPc = s.errPc := rfl
@[simp] theorem setReg_randCount (x : Nibble) (b : Byte) : (s.setReg x b).randCount = s.randCount := rfl
@[simp] theorem setReg_readByte (x : Nibble) (b : Byte) (m : Addr) : (s.setReg x b).readByte m = s.readByte m := rfl
@[simp] theorem setReg_fetchWord (x : Nibble) (b : Byte) (m : PcAddr) : (s.setReg x b).fetchWord m = s.fetchWord m := rfl
@[simp] theorem setReg_pixel (x : Nibble) (b : Byte) (px py : Nat) : (s.setReg x b).pixel px py = s.pixel px py := rfl
@[simp] theorem setReg_keyOn (x : Nibble) (b : Byte) (j : Nibble) : (s.setReg x b).keyOn j = s.keyOn j := rfl
@[simp] theorem setReg_npc (x : Nibble) (b : Byte) : (s.setReg x b).npc = s.npc := rfl
@[simp] theorem setReg_leastKey (x : Nibble) (b : Byte) : (s.setReg x b).leastKey = s.leastKey := rfl

/-! ### setFlag -/

@[simp] theorem setFlag_v (c : Bool) : (s.setFlag c).v = (s.setReg 15 (flagByte c)).v := rfl
@[simp] theorem setFlag_ireg (c : Bool) : (s.setFlag c).ireg = s.ireg := rfl
@[simp] theorem setFlag_pc (c : Bool) : (s.setFlag c).pc = s.pc := rfl
@[simp] theorem setFlag_stack (c : Bool) : (s.setFlag c).stack = s.stack := rfl
@[simp] theorem setFlag_sp (c : Bool) : (s.setFlag c).sp = s.sp := rfl
@[simp] theorem setFlag_dt (c : Bool) : (s.setFlag c).dt = s.dt := rfl
@[simp] theorem setFlag_st (c : Bool) : (s.setFlag c).st = s.st := rfl
@[simp] theorem setFlag_mem (c : Bool) : (s.setFlag c).mem = s.mem := rfl
@[simp] theorem setFlag_disp (c : Bool) : (s.setFlag c).disp = s.disp := rfl
@[simp] theorem setFlag_key (c : Bool) : (s.setFlag c).key = s.key := rfl
@[simp] theorem setFlag_displayChanged (c : Bool) : (s.setFlag c).displayChanged = s.displayChanged := rfl
@[simp] theorem setFlag_beepRequested (c : Bool) : (s.setFlag c).beepRequested = s.beepRequested := rfl
@[simp] theorem setFlag_runState (c : Bool) : (s.setFlag c).runState = s.runState := rfl
@[simp] theorem setFlag_errKind (c : Bool) : (s.setFlag c).errKind = s.errKind := rfl
@[simp] theorem setFlag_errWord (c : Bool) : (s.setFlag c).errWord = s.errWord := rfl
@[simp] theorem setFlag_errPc (c : Bool) : (s.setFlag c).errPc = s.errPc := rfl
@[simp] theorem setFlag_randCount (c : Bool) : (s.setFlag c).randCount = s.randCount := rfl
@[simp] theorem setFlag_readByte (c : Bool) (m : Addr) : (s.setFlag c).readByte m = s.readByte m := rfl
@[simp] theorem setFlag_fetchWord (c : Bool) (m : PcAddr) : (s.setFlag c).fetchWord m = s.fetchWord m := rfl
@[simp] theorem setFlag_pixel (c : Bool) (px py : Nat) : (s.setFlag c).pixel px py = s.pixel px py := rfl
@[simp] theorem setFlag_keyOn (c : Bool) (j : Nibble) : (s.setFlag c).keyOn j = s.keyOn j := rfl
@[simp] theorem setFlag_npc (c : Bool) : (s.setFlag c).npc = s.npc := rfl
@[simp] theorem setFlag_leastKey (c : Bool) : (s.setFlag c).leastKey = s.leastKey := rfl

/-! ### setFlagThenReg -/

@[simp] theorem setFlagThenReg_ireg (x : Nibble) (c : Bool) (b : Byte) : (s.setFlagThenReg x c b).ireg = s.ireg := rfl
@[simp] theorem setFlagThenReg_pc (x : Nibble) (c : Bool) (b : Byte) : (s.setFlagThenReg x c b).pc = s.pc := rfl
@[simp] theorem setFlagThenReg_stack (x : Nibble) (c : Bool) (b : Byte) : (s.setFlagThenReg x c b).stack = s.stack := rfl
@[simp] theorem setFlagThenReg_sp (x : Nibble) (c : Bool) (b : Byte) : (s.setFlagThenReg x c b).sp = s.sp := rfl
@[simp] theorem setFlagThenReg_dt (x : Nibble) (c : Bool) (b : Byte) : (s.setFlagThenReg x c b).dt = s.dt := rfl
@[simp] theorem setFlagThenReg_st (x : Nibble) (c : Bool) (b : Byte) : (s.setFlagThenReg x c b).st = s.st := rfl
@[simp] theorem setFlagThenReg_mem (x : Nibble) (c : Bool) (b : Byte) : (s.setFlagThenReg x c b).mem = s.mem := rfl
@[simp] theorem setFlagThenReg_disp (x : Nibble) (c : Bool) (b : Byte) : (s.setFlagThenReg x c b).disp = s.disp := rfl
@[simp] theorem setFlagThenReg_key (x : Nibble) (c : Bool) (b : Byte) : (s.setFlagThenReg x c b).key = s.key := rfl
@[simp] theorem setFlagThenReg_displayChanged (x : Nibble) (c : Bool) (b : Byte) : (s.setFlagThenReg x c b).displayChanged = s.displayChanged := rfl
@[simp] theorem setFlagThenReg_beepRequested (x : Nibble) (c : Bool) (b : Byte) : (s.setFlagThenReg x c b).beepRequested = s.beepRequested := rfl
@[simp] theorem setFlagThenReg_runState (x : Nibble) (c : Bool) (b : Byte) : (s.setFlagThenReg x c b).runState = s.runState := rfl
@[simp] theorem setFlagThenReg_errKind (x : Nibble) (c : Bool) (b : Byte) : (s.setFlagThenReg x c b).errKind = s.errKind := rfl
@[simp] theorem setFlagThenReg_errWord (x : Nibble) (c : Bool) (b : Byte) : (s.setFlagThenReg x c b).errWord = s.errWord := rfl
@[simp] theorem setFlagThenReg_errPc (x : Nibble) (c : Bool) (b : Byte) : (s.setFlagThenReg x c b).errPc = s.errPc := rfl
@[simp] theorem setFlagThenReg_randCount (x : Nibble) (c : Bool) (b : Byte) : (s.setFlagThenReg x c b).randCount = s.randCount := rfl
@[simp] theorem setFlagThenReg_readByte (x : Nibble) (c : Bool) (b : Byte) (m : Addr) : (s.setFlagThenReg x c b).readByte m = s.readByte m := rfl
@[simp] theorem setFlagThenReg_fetchWord (x : Nibble) (c : Bool) (b : Byte) (m : PcAddr) : (s.setFlagThenReg x c b).fetchWord m = s.fetchWord m := rfl
@[simp] theorem setFlagThenReg_pixel (x : Nibble) (c : Bool) (b : Byte) (px py : Nat) : (s.setFlagThenReg x c b).pixel px py = s.pixel px py := rfl
@[simp] theorem setFlagThenReg_keyOn (x : Nibble) (c : Bool) (b : Byte) (j : Nibble) : (s.setFlagThenReg x c b).keyOn j = s.keyOn j := rfl
@[simp] theorem setFlagThenReg_npc (x : Nibble) (c : Bool) (b : Byte) : (s.setFlagThenReg x c b).npc = s.npc := rfl
@[simp] theorem setFlagThenReg_leastKey (x : Nibble) (c : Bool) (b : Byte) : (s.setFlagThenReg x c b).leastKey = s.leastKey := rfl

/-! ### setIndex -/

@[simp] theorem setIndex_v (a : Addr) : (s.setIndex a).v = s.v := rfl
@[simp] theorem setIndex_ireg (a : Addr) : (s.setIndex a).ireg = a := rfl
@[simp] theorem setIndex_pc (a : Addr) : (s.setIndex a).pc = s.pc := rfl
@[simp] theorem setIndex_stack (a : Addr) : (s.setIndex a).stack = s.stack := rfl
@[simp] theorem setIndex_sp (a : Addr) : (s.setIndex a).sp = s.sp := rfl
@[simp] theorem setIndex_dt (a : Addr) : (s.setIndex a).dt = s.dt := rfl
@[simp] theorem setIndex_st (a : Addr) : (s.setIndex a).st = s.st := rfl
@[simp] theorem setIndex_mem (a : Addr) : (s.setIndex a).mem = s.mem := rfl
@[simp] theorem setIndex_disp (a : Addr) : (s.setIndex a).disp = s.disp := rfl
@[simp] theorem setIndex_key (a : Addr) : (s.setIndex a).key = s.key := rfl
@[simp] theorem setIndex_displayChanged (a : Addr) : (s.setIndex a).displayChanged = s.displayChanged := rfl
@[simp] theorem setIndex_beepRequested (a : Addr) : (s.setIndex a).beepRequested = s.beepRequested := rfl
@[simp] theorem setIndex_runState (a : Addr) : (s.setIndex a).runState = s.runState := rfl
@[simp] theorem setIndex_errKind (a : Addr) : (s.setIndex a).errKind = s.errKind := rfl
@[simp] theorem setIndex_errWord (a : Addr) : (s.setIndex a).errWord = s.errWord := rfl
@[simp] theorem setIndex_errPc (a : Addr) : (s.setIndex a).errPc = s.errPc := rfl
@[simp] theorem setIndex_randCount (a : Addr) : (s.setIndex a).randCount = s.randCount := rfl
@[simp] theorem setIndex_reg (a : Addr) (r : Nibble) : (s.setIndex a).reg r = s.reg r := rfl
@[simp] theorem setIndex_readByte (a : Addr) (m : Addr) : (s.setIndex a).readByte m = s.readByte m := rfl
@[simp] theorem setIndex_fetchWord (a : Addr) (m : PcAddr) : (s.setIndex a).fetchWord m = s.fetchWord m := rfl
@[simp] theorem setIndex_pixel (a : Addr) (px py : Nat) : (s.setIndex a).pixel px py = s.pixel px py := rfl
@[simp] theorem setIndex_keyOn (a : Addr) (j : Nibble) : (s.setIndex a).keyOn j = s.keyOn j := rfl
@[simp] theorem setIndex_npc (a : Addr) : (s.setIndex a).npc = s.npc := rfl
@[simp] theorem setIndex_leastKey (a : Addr) : (s.setIndex a).leastKey = s.leastKey := rfl

/-! ### setPc -/

@[simp] theorem setPc_v (a : PcAddr) : (s.setPc a).v = s.v := rfl
@[simp] theorem setPc_ireg (a : PcAddr) : (s.setPc a).ireg = s.ireg := rfl
@[simp] theorem setPc_pc (a : PcAddr) : (s.setPc a).pc = a := rfl
@[simp] theorem setPc_stack (a : PcAddr) : (s.setPc a).stack = s.stack := rfl
@[simp] theorem setPc_sp (a : PcAddr) : (s.setPc a).sp = s.sp := rfl
@[simp] theorem setPc_dt (a : PcAddr) : (s.setPc a).dt = s.dt := rfl
@[simp] theorem setPc_st (a : PcAddr) : (s.setPc a).st = s.st := rfl
@[simp] theorem setPc_mem (a : PcAddr) : (s.setPc a).mem = s.mem := rfl
@[simp] theorem setPc_disp (a : PcAddr) : (s.setPc a).disp = s.disp := rfl
@[simp] theorem setPc_key (a : PcAddr) : (s.setPc a).key = s.key := rfl
@[simp] theorem setPc_displayChanged (a : PcAddr) : (s.setPc a).displayChanged = s.displayChanged := rfl
@[simp] theorem setPc_beepRequested (a : PcAddr) : (s.setPc a).beepRequested = s.beepRequested := rfl
@[simp] theorem setPc_runState (a : PcAddr) : (s.setPc a).runState = s.runState := rfl
@[simp] theorem setPc_errKind (a : PcAddr) : (s.setPc a).errKind = s.errKind := rfl
@[simp] theorem setPc_errWord (a : PcAddr) : (s.setPc a).errWord = s.errWord := rfl
@[simp] theorem setPc_errPc (a : PcAddr) : (s.setPc a).errPc = s.errPc := rfl
@[simp] theorem setPc_randCount (a : PcAddr) : (s.setPc a).randCount = s.randCount := rfl
@[simp] theorem setPc_reg (a : PcAddr) (r : Nibble) : (s.setPc a).reg r = s.reg r := rfl
@[simp] theorem setPc_readByte (a : PcAddr) (m : Addr) : (s.setPc a).readByte m = s.readByte m := rfl
@[simp] theorem setPc_fetchWord (a : PcAddr) (m : PcAddr) : (s.setPc a).fetchWord m = s.fetchWord m := rfl
@[simp] theorem setPc_pixel (a : PcAddr) (px py : Nat) : (s.setPc a).pixel px py = s.pixel px py := rfl
@[simp] theorem setPc_keyOn (a : PcAddr) (j : Nibble) : (s.setPc a).keyOn j = s.keyOn j := rfl
@[simp] theorem setPc_leastKey (a : PcAddr) : (s.setPc a).leastKey = s.leastKey := rfl

/-! ### advance -/

@[simp] theorem advance_v : (s.advance).v = s.v := rfl
@[simp] theorem advance_ireg : (s.advance).ireg = s.ireg := rfl
@[simp] theorem advance_pc : (s.advance).pc = s.npc := rfl
@[simp] theorem advance_stack : (s.advance).stack = s.stack := rfl
@[simp] theorem advance_sp : (s.advance).sp = s.sp := rfl
@[simp] theorem advance_dt : (s.advance).dt = s.dt := rfl
@[simp] theorem advance_st : (s.advance).st = s.st := rfl
@[simp] theorem advance_mem : (s.advance).mem = s.mem := rfl
@[simp] theorem advance_disp : (s.advance).disp = s.disp := rfl
@[simp] theorem advance_key : (s.advance).key = s.key := rfl
@[simp] theorem advance_displayChanged : (s.advance).displayChanged = s.displayChanged := rfl
@[simp] theorem advance_beepRequested : (s.advance).beepRequested = s.beepRequested := rfl
@[simp] theorem advance_runState : (s.advance).runState = s.runState := rfl
@[simp] theorem advance_errKind : (s.advance).errKind = s.errKind := rfl
@[simp] theorem advance_errWord : (s.advance).errWord = s.errWord := rfl
@[simp] theorem advance_errPc : (s.advance).errPc = s.errPc := rfl
@[simp] theorem advance_randCount : (s.advance).randCount = s.randCount := rfl
@[simp] theorem advance_reg (r : Nibble) : (s.advance).reg r = s.reg r := rfl
@[simp] theorem advance_readByte (m : Addr) : (s.advance).readByte m = s.readByte m := rfl
@[simp] theorem advance_fetchWord (m : PcAddr) : (s.advance).fetchWord m = s.fetchWord m := rfl
@[simp] theorem advance_pixel (px py : Nat) : (s.advance).pixel px py = s.pixel px py := rfl
@[simp] theorem advance_keyOn (j : Nibble) : (s.advance).keyOn j = s.keyOn j := rfl
@[simp] theorem advance_leastKey : (s.advance).leastKey = s.leastKey := rfl

/-! ### skipIf -/

@[simp] theorem skipIf_v (c : Bool) : (s.skipIf c).v = s.v := by cases c <;> rfl
@[simp] theorem skipIf_ireg (c : Bool) : (s.skipIf c).ireg = s.ireg := by cases c <;> rfl
@[simp] theorem skipIf_stack (c : Bool) : (s.skipIf c).stack = s.stack := by cases c <;> rfl
@[simp] theorem skipIf_sp (c : Bool) : (s.skipIf c).sp = s.sp := by cases c <;> rfl
@[simp] theorem skipIf_dt (c : Bool) : (s.skipIf c).dt = s.dt := by cases c <;> rfl
@[simp] theorem skipIf_st (c : Bool) : (s.skipIf c).st = s.st := by cases c <;> rfl
@[simp] theorem skipIf_mem (c : Bool) : (s.skipIf c).mem = s.mem := by cases c <;> rfl
@[simp] theorem skipIf_disp (c : Bool) : (s.skipIf c).disp = s.disp := by cases c <;> rfl
@[simp] theorem skipIf_key (c : Bool) : (s.skipIf c).key = s.key := by cases c <;> rfl
@[simp] theorem skipIf_displayChanged (c : Bool) : (s.skipIf c).displayChanged = s.displayChanged := by cases c <;> rfl
@[simp] theorem skipIf_beepRequested (c : Bool) : (s.skipIf c).beepRequested = s.beepRequested := by cases c <;> rfl
@[simp] theorem skipIf_runState (c : Bool) : (s.skipIf c).runState = s.runState := by cases c <;> rfl
@[simp] theorem skipIf_errKind (c : Bool) : (s.skipIf c).errKind = s.errKind := by cases c <;> rfl
@[simp] theorem skipIf_errWord (c : Bool) : (s.skipIf c).errWord = s.errWord := by cases c <;> rfl
@[simp] theorem skipIf_errPc (c : Bool) : (s.skipIf c).errPc = s.errPc := by cases c <;> rfl
@[simp] theorem skipIf_randCount (c : Bool) : (s.skipIf c).randCount = s.randCount := by cases c <;> rfl
@[simp] theorem skipIf_reg (c : Bool) (r : Nibble) : (s.skipIf c).reg r = s.reg r := by cases c <;> rfl
@[simp] theorem skipIf_readByte (c : Bool) (m : Addr) : (s.skipIf c).readByte m = s.readByte m := by cases c <;> rfl
@[simp] theorem skipIf_fetchWord (c : Bool) (m : PcAddr) : (s.skipIf c).fetchWord m = s.fetchWord m := by cases c <;> rfl
@[simp] theorem skipIf_pixel (c : Bool) (px py : Nat) : (s.skipIf c).pixel px py = s.pixel px py := by cases c <;> rfl
@[simp] theorem skipIf_keyOn (c : Bool) (j : Nibble) : (s.skipIf c).keyOn j = s.keyOn j := by cases c <;> rfl
@[simp] theorem skipIf_leastKey (c : Bool) : (s.skipIf c).leastKey = s.leastKey := by cases c <;> rfl

/-! ### writeByte -/

@[simp] theorem writeByte_v (a : Addr) (b : Byte) : (s.writeByte a b).v = s.v := rfl
@[simp] theorem writeByte_ireg (a : Addr) (b : Byte) : (s.writeByte a b).ireg = s.ireg := rfl
@[simp] theorem writeByte_pc (a : Addr) (b : Byte) : (s.writeByte a b).pc = s.pc := rfl
@[simp] theorem writeByte_stack (a : Addr) (b : Byte) : (s.writeByte a b).stack = s.stack := rfl
@[simp] theorem writeByte_sp (a : Addr) (b : Byte) : (s.writeByte a b).sp = s.sp := rfl
@[simp] theorem writeByte_dt (a : Addr) (b : Byte) : (s.writeByte a b).dt = s.dt := rfl
@[simp] theorem writeByte_st (a : Addr) (b : Byte) : (s.writeByte a b).st = s.st := rfl
@[simp] theorem writeByte_mem (a : Addr) (b : Byte) : (s.writeByte a b).mem = Memory.write s.mem a.toNat b := rfl
@[simp] theorem writeByte_disp (a : Addr) (b : Byte) : (s.writeByte a b).disp = s.disp := rfl
@[simp] theorem writeByte_key (a : Addr) (b : Byte) : (s.writeByte a b).key = s.key := rfl
@[simp] theorem writeByte_displayChanged (a : Addr) (b : Byte) : (s.writeByte a b).displayChanged = s.displayChanged := rfl
@[simp] theorem writeByte_beepRequested (a : Addr) (b : Byte) : (s.writeByte a b).beepRequested = s.beepRequested := rfl
@[simp] theorem writeByte_runState (a : Addr) (b : Byte) : (s.writeByte a b).runState = s.runState := rfl
@[simp] theorem writeByte_errKind (a : Addr) (b : Byte) : (s.writeByte a b).errKind = s.errKind := rfl
@[simp] theorem writeByte_errWord (a : Addr) (b : Byte) : (s.writeByte a b).errWord = s.errWord := rfl
@[simp] theorem writeByte_errPc (a : Addr) (b : Byte) : (s.writeByte a b).errPc = s.errPc := rfl
@[simp] theorem writeByte_randCount (a : Addr) (b : Byte) : (s.writeByte a b).randCount = s.randCount := rfl
@[simp] theorem writeByte_reg (a : Addr) (b : Byte) (r : Nibble) : (s.writeByte a b).reg r = s.reg r := rfl
@[simp] theorem writeByte_pixel (a : Addr) (b : Byte) (px py : Nat) : (s.writeByte a b).pixel px py = s.pixel px py := rfl
@[simp] theorem writeByte_keyOn (a : Addr) (b : Byte) (j : Nibble) : (s.writeByte a b).keyOn j = s.keyOn j := rfl
@[simp] theorem writeByte_npc (a : Addr) (b : Byte) : (s.writeByte a b).npc = s.npc := rfl
@[simp] theorem writeByte_leastKey (a : Addr) (b : Byte) : (s.writeByte a b).leastKey = s.leastKey := rfl

/-! ### storeBytes -/

@[simp] theorem storeBytes_v (a : Addr) (bs : List Byte) : (s.storeBytes a bs).v = s.v := by
  induction bs generalizing s a with
  | nil => rfl
  | cons b bs ih => simp [State.storeBytes, ih]

@[simp] theorem storeBytes_ireg (a : Addr) (bs : List Byte) : (s.storeBytes a bs).ireg = s.ireg := by
  induction bs generalizing s a with
  | nil => rfl
  | cons b bs ih => simp [State.storeBytes, ih]

@[simp] theorem storeBytes_pc (a : Addr) (bs : List Byte) : (s.storeBytes a bs).pc = s.pc := by
  induction bs generalizing s a with
  | nil => rfl
  | cons b bs ih => simp [State.storeBytes, ih]

@[simp] theorem storeBytes_stack (a : Addr) (bs : List Byte) : (s.storeBytes a bs).stack = s.stack := by
  induction bs generalizing s a with
  | nil => rfl
  | cons b bs ih => simp [State.storeBytes, ih]

@[simp] theorem storeBytes_sp (a : Addr) (bs : List Byte) : (s.storeBytes a bs).sp = s.sp := by
  induction bs generalizing s a with
  | nil => rfl
  | cons b bs ih => simp [State.storeBytes, ih]

@[simp] theorem storeBytes_dt (a : Addr) (bs : List Byte) : (s.storeBytes a bs).dt = s.dt := by
  induction bs generalizing s a with
  | nil => rfl
  | cons b bs ih => simp [State.storeBytes, ih]

@[simp] theorem storeBytes_st (a : Addr) (bs : List Byte) : (s.storeBytes a bs).st = s.st := by
  induction bs generalizing s a with
  | nil => rfl
  | cons b bs ih => simp [State.storeBytes, ih]

@[simp] theorem storeBytes_disp (a : Addr) (bs : List Byte) : (s.storeBytes a bs).disp = s.disp := by
  induction bs generalizing s a with
  | nil => rfl
  | cons b bs ih => simp [State.storeBytes, ih]

@[simp] theorem storeBytes_key (a : Addr) (bs : List Byte) : (s.storeBytes a bs).key = s.key := by
  induction bs generalizing s a with
  | nil => rfl
  | cons b bs ih => simp [State.storeBytes, ih]

@[simp] theorem storeBytes_displayChanged (a : Addr) (bs : List Byte) : (s.storeBytes a bs).displayChanged = s.displayChanged := by
  induction bs generalizing s a with
  | nil => rfl
  | cons b bs ih => simp [State.storeBytes, ih]

@[simp] theorem storeBytes_beepRequested (a : Addr) (bs : List Byte) : (s.storeBytes a bs).beepRequested = s.beepRequested := by
  induction bs generalizing s a with
  | nil => rfl
  | cons b bs ih => simp [State.storeBytes, ih]

@[simp] theorem storeBytes_runState (a : Addr) (bs : List Byte) : (s.storeBytes a bs).runState = s.runState := by
  induction bs generalizing s a with
  | nil => rfl
  | cons b bs ih => simp [State.storeBytes, ih]

@[simp] theorem storeBytes_errKind (a : Addr) (bs : List Byte) : (s.storeBytes a bs).errKind = s.errKind := by
  induction bs generalizing s a with
  | nil => rfl
  | cons b bs ih => simp [State.storeBytes, ih]

@[simp] theorem storeBytes_errWord (a : Addr) (bs : List Byte) : (s.storeBytes a bs).errWord = s.errWord := by
  induction bs generalizing s a with
  | nil => rfl
  | cons b bs ih => simp [State.storeBytes, ih]

@[simp] theorem storeBytes_errPc (a : Addr) (bs : List Byte) : (s.storeBytes a bs).errPc = s.errPc := by
  induction bs generalizing s a with
  | nil => rfl
  | cons b bs ih => simp [State.storeBytes, ih]

@[simp] theorem storeBytes_randCount (a : Addr) (bs : List Byte) : (s.storeBytes a bs).randCount = s.randCount := by
  induction bs generalizing s a with
  | nil => rfl
  | cons b bs ih => simp [State.storeBytes, ih]

@[simp] theorem storeBytes_reg (a : Addr) (bs : List Byte) (r : Nibble) : (s.storeBytes a bs).reg r = s.reg r := by simp [State.reg]
@[simp] theorem storeBytes_pixel (a : Addr) (bs : List Byte) (px py : Nat) : (s.storeBytes a bs).pixel px py = s.pixel px py := by simp [State.pixel]
@[simp] theorem storeBytes_keyOn (a : Addr) (bs : List Byte) (j : Nibble) : (s.storeBytes a bs).keyOn j = s.keyOn j := by simp [State.keyOn]
@[simp] theorem storeBytes_npc (a : Addr) (bs : List Byte) : (s.storeBytes a bs).npc = s.npc := by simp [State.npc]
@[simp] theorem storeBytes_leastKey (a : Addr) (bs : List Byte) : (s.storeBytes a bs).leastKey = s.leastKey := by
  unfold State.leastKey
  congr 1
  funext j
  simp

/-! ### loadRegs -/

@[simp] theorem loadRegs_ireg (k : Nat) : (s.loadRegs k).ireg = s.ireg := by
  induction k with
  | zero => rfl
  | succ k ih => simp [State.loadRegs, ih]

@[simp] theorem loadRegs_pc (k : Nat) : (s.loadRegs k).pc = s.pc := by
  induction k with
  | zero => rfl
  | succ k ih => simp [State.loadRegs, ih]

@[simp] theorem loadRegs_stack (k : Nat) : (s.loadRegs k).stack = s.stack := by
  induction k with
  | zero => rfl
  | succ k ih => simp [State.loadRegs, ih]

@[simp] theorem loadRegs_sp (k : Nat) : (s.loadRegs k).sp = s.sp := by
  induction k with
  | zero => rfl
  | succ k ih => simp [State.loadRegs, ih]

@[simp] theorem loadRegs_dt (k : Nat) : (s.loadRegs k).dt = s.dt := by
  induction k with
  | zero => rfl
  | succ k ih => simp [State.loadRegs, ih]

@[simp] theorem loadRegs_st (k : Nat) : (s.loadRegs k).st = s.st := by
  induction k with
  | zero => rfl
  | succ k ih => simp [State.loadRegs, ih]

@[simp] theorem loadRegs_mem (k : Nat) : (s.loadRegs k).mem = s.mem := by
  induction k with
  | zero => rfl
  | succ k ih => simp [State.loadRegs, ih]

@[simp] theorem loadRegs_disp (k : Nat) : (s.loadRegs k).disp = s.disp := by
  induction k with
  | zero => rfl
  | succ k ih => simp [State.loadRegs, ih]

@[simp] theorem loadRegs_key (k : Nat) : (s.loadRegs k).key = s.key := by
  induction k with
  | zero => rfl
  | succ k ih => simp [State.loadRegs, ih]

@[simp] theorem loadRegs_displayChanged (k : Nat) : (s.loadRegs k).displayChanged = s.displayChanged := by
  induction k with
  | zero => rfl
  | succ k ih => simp [State.loadRegs, ih]

@[simp] theorem loadRegs_beepRequested (k : Nat) : (s.loadRegs k).beepRequested = s.beepRequested := by
  induction k with
  | zero => rfl
  | succ k ih => simp [State.loadRegs, ih]

@[simp] theorem loadRegs_runState (k : Nat) : (s.loadRegs k).runState = s.runState := by
  induction k with
  | zero => rfl
  | succ k ih => simp [State.loadRegs, ih]

@[simp] theorem loadRegs_errKind (k : Nat) : (s.loadRegs k).errKind = s.errKind := by
  induction k with
  | zero => rfl
  | succ k ih => simp [State.loadRegs, ih]

@[simp] theorem loadRegs_errWord (k : Nat) : (s.loadRegs k).errWord = s.errWord := by
  induction k with
  | zero => rfl
  | succ k ih => simp [State.loadRegs, ih]

@[simp] theorem loadRegs_errPc (k : Nat) : (s.loadRegs k).errPc = s.errPc := by
  induction k with
  | zero => rfl
  | succ k ih => simp [State.loadRegs, ih]

@[simp] theorem loadRegs_randCount (k : Nat) : (s.loadRegs k).randCount = s.randCount := by
  induction k with
  | zero => rfl
  | succ k ih => simp [State.loadRegs, ih]

@[simp] theorem loadRegs_readByte (k : Nat) (m : Addr) : (s.loadRegs k).readByte m = s.readByte m := by simp [State.readByte]
@[simp] theorem loadRegs_fetchWord (k : Nat) (m : PcAddr) : (s.loadRegs k).fetchWord m = s.fetchWord m := by simp [State.fetchWord, State.readByte]
@[simp] theorem loadRegs_pixel (k : Nat) (px py : Nat) : (s.loadRegs k).pixel px py = s.pixel px py := by simp [State.pixel]
@[simp] theorem loadRegs_keyOn (k : Nat) (j : Nibble) : (s.loadRegs k).keyOn j = s.keyOn j := by simp [State.keyOn]
@[simp] theorem loadRegs_npc (k : Nat) : (s.loadRegs k).npc = s.npc := by simp [State.npc]
@[simp] theorem loadRegs_leastKey (k : Nat) : (s.loadRegs k).leastKey = s.leastKey := by
  unfold State.leastKey
  congr 1
  funext j
  simp

/-! ### raise -/

@[simp] theorem raise_v (k : ErrKind) (w : Word) (a : PcAddr) : (s.raise k w a).v = s.v := rfl
@[simp] theorem raise_ireg (k : ErrKind) (w : Word) (a : PcAddr) : (s.raise k w a).ireg = s.ireg := rfl
@[simp] theorem raise_pc (k : ErrKind) (w : Word) (a : PcAddr) : (s.raise k w a).pc = a := rfl
@[simp] theorem raise_stack (k : ErrKind) (w : Word) (a : PcAddr) : (s.raise k w a).stack = s.stack := rfl
@[simp] theorem raise_sp (k : ErrKind) (w : Word) (a : PcAddr) : (s.raise k w a).sp = s.sp := rfl
@[simp] theorem raise_dt (k : ErrKind) (w : Word) (a : PcAddr) : (s.raise k w a).dt = s.dt := rfl
@[simp] theorem raise_st (k : ErrKind) (w : Word) (a : PcAddr) : (s.raise k w a).st = s.st := rfl
@[simp] theorem raise_mem (k : ErrKind) (w : Word) (a : PcAddr) : (s.raise k w a).mem = s.mem := rfl
@[simp] theorem raise_disp (k : ErrKind) (w : Word) (a : PcAddr) : (s.raise k w a).disp = s.disp := rfl
@[simp] theorem raise_key (k : ErrKind) (w : Word) (a : PcAddr) : (s.raise k w a).key = s.key := rfl
@[simp] theorem raise_displayChanged (k : ErrKind) (w : Word) (a : PcAddr) : (s.raise k w a).displayChanged = s.displayChanged := rfl
@[simp] theorem raise_beepRequested (k : ErrKind) (w : Word) (a : PcAddr) : (s.raise k w a).beepRequested = s.beepRequested := rfl
@[simp] theorem raise_runState (k : ErrKind) (w : Word) (a : PcAddr) : (s.raise k w a).runState = .halted := rfl
@[simp] theorem raise_errKind (k : ErrKind) (w : Word) (a : PcAddr) : (s.raise k w a).errKind = k := rfl
@[simp] theorem raise_errWord (k : ErrKind) (w : Word) (a : PcAddr) : (s.raise k w a).errWord = w := rfl
@[simp] theorem raise_errPc (k : ErrKind) (w : Word) (a : PcAddr) : (s.raise k w a).errPc = a := rfl
@[simp] theorem raise_randCount (k : ErrKind) (w : Word) (a : PcAddr) : (s.raise k w a).randCount = s.randCount := rfl
@[simp] theorem raise_reg (k : ErrKind) (w : Word) (a : PcAddr) (r : Nibble) : (s.raise k w a).reg r = s.reg r := rfl
@[simp] theorem raise_readByte (k : ErrKind) (w : Word) (a : PcAddr) (m : Addr) : (s.raise k w a).readByte m = s.readByte m := rfl
@[simp] theorem raise_fetchWord (k : ErrKind) (w : Word) (a : PcAddr) (m : PcAddr) : (s.raise k w a).fetchWord m = s.fetchWord m := rfl
@[simp] theorem raise_pixel (k : ErrKind) (w : Word) (a : PcAddr) (px py : Nat) : (s.raise k w a).pixel px py = s.pixel px py := rfl
@[simp] theorem raise_keyOn (k : ErrKind) (w : Word) (a : PcAddr) (j : Nibble) : (s.raise k w a).keyOn j = s.keyOn j := rfl
@[simp] theorem raise_leastKey (k : ErrKind) (w : Word) (a : PcAddr) : (s.raise k w a).leastKey = s.leastKey := rfl

/-! ### setDisplay -/

@[simp] theorem setDisplay_v (d : Display) : (s.setDisplay d).v = s.v := rfl
@[simp] theorem setDisplay_ireg (d : Display) : (s.setDisplay d).ireg = s.ireg := rfl
@[simp] theorem setDisplay_pc (d : Display) : (s.setDisplay d).pc = s.pc := rfl
@[simp] theorem setDisplay_stack (d : Display) : (s.setDisplay d).stack = s.stack := rfl
@[simp] theorem setDisplay_sp (d : Display) : (s.setDisplay d).sp = s.sp := rfl
@[simp] theorem setDisplay_dt (d : Display) : (s.setDisplay d).dt = s.dt := rfl
@[simp] theorem setDisplay_st (d : Display) : (s.setDisplay d).st = s.st := rfl
@[simp] theorem setDisplay_mem (d : Display) : (s.setDisplay d).mem = s.mem := rfl
@[simp] theorem setDisplay_disp (d : Display) : (s.setDisplay d).disp = d := rfl
@[simp] theorem setDisplay_key (d : Display) : (s.setDisplay d).key = s.key := rfl
@[simp] theorem setDisplay_displayChanged (d : Display) : (s.setDisplay d).displayChanged = true := rfl
@[simp] theorem setDisplay_beepRequested (d : Display) : (s.setDisplay d).beepRequested = s.beepRequested := rfl
@[simp] theorem setDisplay_runState (d : Display) : (s.setDisplay d).runState = s.runState := rfl
@[simp] theorem setDisplay_errKind (d : Display) : (s.setDisplay d).errKind = s.errKind := rfl
@[simp] theorem setDisplay_errWord (d : Display) : (s.setDisplay d).errWord = s.errWord := rfl
@[simp] theorem setDisplay_errPc (d : Display) : (s.setDisplay d).errPc = s.errPc := rfl
@[simp] theorem setDisplay_randCount (d : Display) : (s.setDisplay d).randCount = s.randCount := rfl
@[simp] theorem setDisplay_reg (d : Display) (r : Nibble) : (s.setDisplay d).reg r = s.reg r := rfl
@[simp] theorem setDisplay_readByte (d : Display) (m : Addr) : (s.setDisplay d).readByte m = s.readByte m := rfl
@[simp] theorem setDisplay_fetchWord (d : Display) (m : PcAddr) : (s.setDisplay d).fetchWord m = s.fetchWord m := rfl
@[simp] theorem setDisplay_keyOn (d : Display) (j : Nibble) : (s.setDisplay d).keyOn j = s.keyOn j := rfl
@[simp] theorem setDisplay_npc (d : Display) : (s.setDisplay d).npc = s.npc := rfl
@[simp] theorem setDisplay_leastKey (d : Display) : (s.setDisplay d).leastKey = s.leastKey := rfl

/-! ### setKey -/

@[simp] theorem setKey_v (k : Nibble) (b : Bool) : (s.setKey k b).v = s.v := rfl
@[simp] theorem setKey_ireg (k : Nibble) (b : Bool) : (s.setKey k b).ireg = s.ireg := rfl
@[simp] theorem setKey_pc (k : Nibble) (b : Bool) : (s.setKey k b).pc = s.pc := rfl
@[simp] theorem setKey_stack (k : Nibble) (b : Bool) : (s.setKey k b).stack = s.stack := rfl
@[simp] theorem setKey_sp (k : Nibble) (b : Bool) : (s.setKey k b).sp = s.sp := rfl
@[simp] theorem setKey_dt (k : Nibble) (b : Bool) : (s.setKey k b).dt = s.dt := rfl
@[simp] theorem setKey_st (k : Nibble) (b : Bool) : (s.setKey k b).st = s.st := rfl
@[simp] theorem setKey_mem (k : Nibble) (b : Bool) : (s.setKey k b).mem = s.mem := rfl
@[simp] theorem setKey_disp (k : Nibble) (b : Bool) : (s.setKey k b).disp = s.disp := rfl
@[simp] theorem setKey_key (k : Nibble) (b : Bool) : (s.setKey k b).key = s.key.set k.toNat b k.isLt := rfl
@[simp] theorem setKey_displayChanged (k : Nibble) (b : Bool) : (s.setKey k b).displayChanged = s.displayChanged := rfl
@[simp] theorem setKey_beepRequested (k : Nibble) (b : Bool) : (s.setKey k b).beepRequested = s.beepRequested := rfl
@[simp] theorem setKey_runState (k : Nibble) (b : Bool) : (s.setKey k b).runState = s.runState := rfl
@[simp] theorem setKey_errKind (k : Nibble) (b : Bool) : (s.setKey k b).errKind = s.errKind := rfl
@[simp] theorem setKey_errWord (k : Nibble) (b : Bool) : (s.setKey k b).errWord = s.errWord := rfl
@[simp] theorem setKey_errPc (k : Nibble) (b : Bool) : (s.setKey k b).errPc = s.errPc := rfl
@[simp] theorem setKey_randCount (k : Nibble) (b : Bool) : (s.setKey k b).randCount = s.randCount := rfl
@[simp] theorem setKey_reg (k : Nibble) (b : Bool) (r : Nibble) : (s.setKey k b).reg r = s.reg r := rfl
@[simp] theorem setKey_readByte (k : Nibble) (b : Bool) (m : Addr) : (s.setKey k b).readByte m = s.readByte m := rfl
@[simp] theorem setKey_fetchWord (k : Nibble) (b : Bool) (m : PcAddr) : (s.setKey k b).fetchWord m = s.fetchWord m := rfl
@[simp] theorem setKey_pixel (k : Nibble) (b : Bool) (px py : Nat) : (s.setKey k b).pixel px py = s.pixel px py := rfl
@[simp] theorem setKey_npc (k : Nibble) (b : Bool) : (s.setKey k b).npc = s.npc := rfl

/-! ### setDt -/

@[simp] theorem setDt_v (b : Byte) : (s.setDt b).v = s.v := rfl
@[simp] theorem setDt_ireg (b : Byte) : (s.setDt b).ireg = s.ireg := rfl
@[simp] theorem setDt_pc (b : Byte) : (s.setDt b).pc = s.pc := rfl
@[simp] theorem setDt_stack (b : Byte) : (s.setDt b).stack = s.stack := rfl
@[simp] theorem setDt_sp (b : Byte) : (s.setDt b).sp = s.sp := rfl
@[simp] theorem setDt_dt (b : Byte) : (s.setDt b).dt = b := rfl
@[simp] theorem setDt_st (b : Byte) : (s.setDt b).st = s.st := rfl
@[simp] theorem setDt_mem (b : Byte) : (s.setDt b).mem = s.mem := rfl
@[simp] theorem setDt_disp (b : Byte) : (s.setDt b).disp = s.disp := rfl
@[simp] theorem setDt_key (b : Byte) : (s.setDt b).key = s.key := rfl
@[simp] theorem setDt_displayChanged (b : Byte) : (s.setDt b).displayChanged = s.displayChanged := rfl
@[simp] theorem setDt_beepRequested (b : Byte) : (s.setDt b).beepRequested = s.beepRequested := rfl
@[simp] theorem setDt_runState (b : Byte) : (s.setDt b).runState = s.runState := rfl
@[simp] theorem setDt_errKind (b : Byte) : (s.setDt b).errKind = s.errKind := rfl
@[simp] theorem setDt_errWord (b : Byte) : (s.setDt b).errWord = s.errWord := rfl
@[simp] theorem setDt_errPc (b : Byte) : (s.setDt b).errPc = s.errPc := rfl
@[simp] theorem setDt_randCount (b : Byte) : (s.setDt b).randCount = s.randCount := rfl
@[simp] theorem setDt_reg (b : Byte) (r : Nibble) : (s.setDt b).reg r = s.reg r := rfl
@[simp] theorem setDt_readByte (b : Byte) (m : Addr) : (s.setDt b).readByte m = s.readByte m := rfl
@[simp] theorem setDt_fetchWord (b : Byte) (m : PcAddr) : (s.setDt b).fetchWord m = s.fetchWord m := rfl
@[simp] theorem setDt_pixel (b : Byte) (px py : Nat) : (s.setDt b).pixel px py = s.pixel px py := rfl
@[simp] theorem setDt_keyOn (b : Byte) (j : Nibble) : (s.setDt b).keyOn j = s.keyOn j := rfl
@[simp] theorem setDt_npc (b : Byte) : (s.setDt b).npc = s.npc := rfl
@[simp] theorem setDt_leastKey (b : Byte) : (s.setDt b).leastKey = s.leastKey := rfl

/-! ### setSt -/

@[simp] theorem setSt_v (b : Byte) : (s.setSt b).v = s.v := rfl
@[simp] theorem setSt_ireg (b : Byte) : (s.setSt b).ireg = s.ireg := rfl
@[simp] theorem setSt_pc (b : Byte) : (s.setSt b).pc = s.pc := rfl
@[simp] theorem setSt_stack (b : Byte) : (s.setSt b).stack = s.stack := rfl
@[simp] theorem setSt_sp (b : Byte) : (s.setSt b).sp = s.sp := rfl
@[simp] theorem setSt_dt (b : Byte) : (s.setSt b).dt = s.dt := rfl
@[simp] theorem setSt_st (b : Byte) : (s.setSt b).st = b := rfl
@[simp] theorem setSt_mem (b : Byte) : (s.setSt b).mem = s.mem := rfl
@[simp] theorem setSt_disp (b : Byte) : (s.setSt b).disp = s.disp := rfl
@[simp] theorem setSt_key (b : Byte) : (s.setSt b).key = s.key := rfl
@[simp] theorem setSt_displayChanged (b : Byte) : (s.setSt b).displayChanged = s.displayChanged := rfl
@[simp] theorem setSt_beepRequested (b : Byte) : (s.setSt b).beepRequested = s.beepRequested := rfl
@[simp] theorem setSt_runState (b : Byte) : (s.setSt b).runState = s.runState := rfl
@[simp] theorem setSt_errKind (b : Byte) : (s.setSt b).errKind = s.errKind := rfl
@[simp] theorem setSt_errWord (b : Byte) : (s.setSt b).errWord = s.errWord := rfl
@[simp] theorem setSt_errPc (b : Byte) : (s.setSt b).errPc = s.errPc := rfl
@[simp] theorem setSt_randCount (b : Byte) : (s.setSt b).randCount = s.randCount := rfl
@[simp] theorem setSt_reg (b : Byte) (r : Nibble) : (s.setSt b).reg r = s.reg r := rfl
@[simp] theorem setSt_readByte (b : Byte) (m : Addr) : (s.setSt b).readByte m = s.readByte m := rfl
@[simp] theorem setSt_fetchWord (b : Byte) (m : PcAddr) : (s.setSt b).fetchWord m = s.fetchWord m := rfl
@[simp] theorem setSt_pixel (b : Byte) (px py : Nat) : (s.setSt b).pixel px py = s.pixel px py := rfl
@[simp] theorem setSt_keyOn (b : Byte) (j : Nibble) : (s.setSt b).keyOn j = s.keyOn j := rfl
@[simp] theorem setSt_npc (b : Byte) : (s.setSt b).npc = s.npc := rfl
@[simp] theorem setSt_leastKey (b : Byte) : (s.setSt b).leastKey = s.leastKey := rfl

/-! ### useRand -/

@[simp] theorem useRand_v : (s.useRand).v = s.v := rfl
@[simp] theorem useRand_ireg : (s.useRand).ireg = s.ireg := rfl
@[simp] theorem useRand_pc : (s.useRand).pc = s.pc := rfl
@[simp] theorem useRand_stack : (s.useRand).stack = s.stack := rfl
@[simp] theorem useRand_sp : (s.useRand).sp = s.sp := rfl
@[simp] theorem useRand_dt : (s.useRand).dt = s.dt := rfl
@[simp] theorem useRand_st : (s.useRand).st = s.st := rfl
@[simp] theorem useRand_mem : (s.useRand).mem = s.mem := rfl
@[simp] theorem useRand_disp : (s.useRand).disp = s.disp := rfl
@[simp] theorem useRand_key : (s.useRand).key = s.key := rfl
@[simp] theorem useRand_displayChanged : (s.useRand).displayChanged = s.displayChanged := rfl
@[simp] theorem useRand_beepRequested : (s.useRand).beepRequested = s.beepRequested := rfl
@[simp] theorem useRand_runState : (s.useRand).runState = s.runState := rfl
@[simp] theorem useRand_errKind : (s.useRand).errKind = s.errKind := rfl
@[simp] theorem useRand_errWord : (s.useRand).errWord = s.errWord := rfl
@[simp] theorem useRand_errPc : (s.useRand).errPc = s.errPc := rfl
@[simp] theorem useRand_randCount : (s.useRand).randCount = s.randCount + 1 := rfl
@[simp] theorem useRand_reg (r : Nibble) : (s.useRand).reg r = s.reg r := rfl
@[simp] theorem useRand_readByte (m : Addr) : (s.useRand).readByte m = s.readByte m := rfl
@[simp] theorem useRand_fetchWord (m : PcAddr) : (s.useRand).fetchWord m = s.fetchWord m := rfl
@[simp] theorem useRand_pixel (px py : Nat) : (s.useRand).pixel px py = s.pixel px py := rfl
@[simp] theorem useRand_keyOn (j : Nibble) : (s.useRand).keyOn j = s.keyOn j := rfl
@[simp] theorem useRand_npc : (s.useRand).npc = s.npc := rfl
@[simp] theorem useRand_leastKey : (s.useRand).leastKey = s.leastKey := rfl

end Sys2Proof.Machine.State
end

