-- ==== Sys2Proof/Laws/Memory.lean ====
section
/-! SUPPORT. Memory: what a read gives after a write, and that every operation keeps the canonical form. -/
namespace Sys2Proof.Machine

/-! ### Read after write, on any list -/

theorem Memory.read_erase_self (m : Memory) (a : Nat) : Memory.read (Memory.erase m a) a = Memory.resetByte a := by
  induction m with
  | nil => rfl
  | cons c m ih =>
    obtain ⟨k, b⟩ := c
    by_cases h : k = a
    · subst h; simpa [Memory.erase] using ih
    · simpa [Memory.erase, Memory.read, h] using ih

theorem Memory.read_erase_of_ne (m : Memory) {a c : Nat} (h : c ≠ a) :
    Memory.read (Memory.erase m a) c = Memory.read m c := by
  induction m with
  | nil => rfl
  | cons e m ih =>
    obtain ⟨k, b⟩ := e
    by_cases hk : k = a
    · subst hk; simpa [Memory.erase, Memory.read, Ne.symm h] using ih
    · by_cases hc : k = c
      · subst hc; simp [Memory.erase, Memory.read, h]
      · simpa [Memory.erase, Memory.read, hk, hc] using ih

theorem Memory.read_insert_of_ne (m : Memory) {a c : Nat} (b : Byte) (h : c ≠ a) :
    Memory.read (Memory.insert m a b) c = Memory.read m c := by
  induction m with
  | nil => simp [Memory.insert, Memory.read, Ne.symm h]
  | cons e m ih =>
    obtain ⟨k, d⟩ := e
    by_cases hk : a < k
    · simp [Memory.insert, hk, Memory.read, Ne.symm h]
    · rw [Memory.insert, if_neg hk]
      by_cases hc : k = c <;> simp [Memory.read, hc, ih]

/-- Inserting at an address with no entry makes it read as the byte inserted. -/
theorem Memory.read_insert_self (m : Memory) (a : Nat) (b : Byte) (h : ∀ c ∈ m, c.1 ≠ a) :
    Memory.read (Memory.insert m a b) a = b := by
  induction m with
  | nil => simp [Memory.insert, Memory.read]
  | cons e m ih =>
    obtain ⟨k, d⟩ := e
    have hk : k ≠ a := h (k, d) (by simp)
    have ih' := ih (fun c hc => h c (by simp [hc]))
    by_cases hlt : a < k <;> simp [Memory.insert, hlt, Memory.read, hk, ih']

/-- A read after a write: the byte written there, the old byte elsewhere. It holds of every list. -/
theorem Memory.read_write (m : Memory) (a c : Nat) (b : Byte) :
    Memory.read (Memory.write m a b) c = if c = a then b else Memory.read m c := by
  unfold Memory.write
  by_cases hc : c = a
  · subst hc
    by_cases hb : b = Memory.resetByte c
    · simp [hb, Memory.read_erase_self]
    · simp [hb, Memory.read_insert_self (Memory.erase m c) c b (by simp [Memory.erase])]
  · by_cases hb : b = Memory.resetByte a
    · simp [hb, hc, Memory.read_erase_of_ne m hc]
    · simp [hb, hc, Memory.read_insert_of_ne _ b hc, Memory.read_erase_of_ne m hc]

/-! ### The canonical form -/

theorem Memory.wfFrom_mono {lo lo' : Nat} (h : lo' ≤ lo) (m : Memory) (hm : Memory.wfFrom lo m = true) :
    Memory.wfFrom lo' m = true := by
  cases m with
  | nil => rfl
  | cons e m =>
    simp only [Memory.wfFrom, Bool.and_eq_true, decide_eq_true_eq] at hm ⊢
    exact ⟨⟨⟨by omega, hm.1.1.2⟩, hm.1.2⟩, hm.2⟩

theorem Memory.wfFrom_erase (m : Memory) (a lo : Nat) (hm : Memory.wfFrom lo m = true) :
    Memory.wfFrom lo (Memory.erase m a) = true := by
  induction m generalizing lo with
  | nil => rfl
  | cons e m ih =>
    obtain ⟨k, b⟩ := e
    simp only [Memory.wfFrom, Bool.and_eq_true, decide_eq_true_eq] at hm
    obtain ⟨⟨⟨h1, h2⟩, h3⟩, h4⟩ := hm
    by_cases hk : k = a
    · have h5 : Memory.erase ((k, b) :: m) a = Memory.erase m a := by simp [Memory.erase, hk]
      rw [h5]
      exact Memory.wfFrom_mono (by omega) _ (ih (k + 1) h4)
    · have h5 : Memory.erase ((k, b) :: m) a = (k, b) :: Memory.erase m a := by simp [Memory.erase, hk]
      simp [h5, Memory.wfFrom, h1, h2, h3, ih (k + 1) h4]

theorem Memory.wfFrom_insert (m : Memory) (a lo : Nat) (b : Byte) (hm : Memory.wfFrom lo m = true)
    (hlo : lo ≤ a) (ha : a < Config.memSize) (hb : b ≠ Memory.resetByte a) (hne : ∀ c ∈ m, c.1 ≠ a) :
    Memory.wfFrom lo (Memory.insert m a b) = true := by
  induction m generalizing lo with
  | nil => simp [Memory.insert, Memory.wfFrom, hlo, ha, hb]
  | cons e m ih =>
    obtain ⟨k, d⟩ := e
    simp only [Memory.wfFrom, Bool.and_eq_true, decide_eq_true_eq] at hm
    obtain ⟨⟨⟨h1, h2⟩, h3⟩, h4⟩ := hm
    have hk : k ≠ a := hne (k, d) (by simp)
    by_cases hlt : a < k
    · simp [Memory.insert, hlt, Memory.wfFrom, hlo, ha, hb, h2, h3, h4]
    · have h5 := ih (k + 1) h4 (by omega) (fun c hc => hne c (by simp [hc]))
      simp [Memory.insert, hlt, Memory.wfFrom, h1, h2, h3, h5]

/-- A write below 4096 keeps the canonical form. -/
theorem Memory.wf_write (m : Memory) (a : Nat) (b : Byte) (hm : Memory.wf m = true) (ha : a < Config.memSize) :
    Memory.wf (Memory.write m a b) = true := by
  unfold Memory.write
  split
  · exact Memory.wfFrom_erase m a 0 hm
  · rename_i hb
    exact Memory.wfFrom_insert _ a 0 b (Memory.wfFrom_erase m a 0 hm) (Nat.zero_le _) ha hb (by simp [Memory.erase])

/-- Below its first possible address a canonical list reads as the reset contents. -/
theorem Memory.read_below (m : Memory) (lo a : Nat) (hm : Memory.wfFrom lo m = true) (h : a < lo) :
    Memory.read m a = Memory.resetByte a := by
  induction m generalizing lo with
  | nil => rfl
  | cons e m ih =>
    obtain ⟨k, b⟩ := e
    simp only [Memory.wfFrom, Bool.and_eq_true, decide_eq_true_eq] at hm
    obtain ⟨⟨⟨h1, _⟩, _⟩, h4⟩ := hm
    have hk : k ≠ a := by omega
    simp [Memory.read, hk, ih (k + 1) h4 (by omega)]

/-- At and above 4096 a canonical list reads as the reset contents: it has no cell there. -/
theorem Memory.read_of_memSize_le (m : Memory) (lo a : Nat) (hm : Memory.wfFrom lo m = true)
    (h : Config.memSize ≤ a) : Memory.read m a = Memory.resetByte a := by
  induction m generalizing lo with
  | nil => rfl
  | cons e m ih =>
    obtain ⟨k, b⟩ := e
    simp only [Memory.wfFrom, Bool.and_eq_true, decide_eq_true_eq] at hm
    obtain ⟨⟨⟨_, h2⟩, _⟩, h4⟩ := hm
    have hk : k ≠ a := by omega
    simp [Memory.read, hk, ih (k + 1) h4]

/-! ### The same for the state -/

@[simp] theorem State.readByte_writeByte (s : State) (a c : Addr) (b : Byte) :
    (s.writeByte a b).readByte c = if c = a then b else s.readByte c := by
  simp [State.readByte, State.writeByte, Memory.read_write, BitVec.toNat_inj]

theorem State.wf_writeByte (s : State) (a : Addr) (b : Byte) (h : Memory.wf s.mem = true) :
    Memory.wf (s.writeByte a b).mem = true :=
  Memory.wf_write _ _ _ h a.isLt

/-- Storing bytes keeps the canonical form. -/
theorem State.wf_storeBytes (s : State) (a : Addr) (bs : List Byte) (h : Memory.wf s.mem = true) :
    Memory.wf (s.storeBytes a bs).mem = true := by
  induction bs generalizing s a with
  | nil => exact h
  | cons b bs ih => exact ih _ _ (s.wf_writeByte a b h)

theorem addrPlus_eq_add (a : Addr) (k : Nat) : addrPlus a k = a + BitVec.ofNat 12 k := by
  apply BitVec.eq_of_toNat_eq; simp [addrPlus]

theorem addrPlus_addrPlus (a : Addr) (j k : Nat) : addrPlus (addrPlus a j) k = addrPlus a (j + k) := by
  apply BitVec.eq_of_toNat_eq; simp [addrPlus]; omega

@[simp] theorem addrPlus_zero (a : Addr) : addrPlus a 0 = a := by
  apply BitVec.eq_of_toNat_eq; simp [addrPlus]

@[simp] theorem addrPlus_two (a : Addr) : addrPlus a 2 = a + 2 := addrPlus_eq_add a 2

/-! At this hardware's PC_WIDTH (`params`) PC values are the addresses of memory, and PC wraps as they do. -/

@[simp] theorem pcOf_eq (a : Addr) : pcOf a = a := BitVec.setWidth_eq a

@[simp] theorem memAddr_eq (a : PcAddr) : memAddr a = a := BitVec.setWidth_eq a

theorem pcPlus_eq (a : PcAddr) (k : Nat) : pcPlus a k = addrPlus a k := rfl

@[simp] theorem pcPlus_toNat (a : PcAddr) (k : Nat) : (pcPlus a k).toNat = (a.toNat + k) % 4096 :=
  BitVec.toNat_ofNat (a.toNat + k) 12

@[simp] theorem setWidth_pcWidth (a : Addr) : BitVec.setWidth params.pcWidth a = a := BitVec.setWidth_eq a

/-- Two offsets below 4096 name the same cell only when equal (20_memory.md R66). -/
theorem addrPlus_inj (a : Addr) {j k : Nat} (hj : j < 4096) (hk : k < 4096) (h : addrPlus a j = addrPlus a k) :
    j = k := by
  have := congrArg BitVec.toNat h
  simp [addrPlus] at this
  omega

/-- Every address is some offset from `a`. -/
theorem addrPlus_surj (a c : Addr) : ∃ j, j < 4096 ∧ c = addrPlus a j := by
  refine ⟨(c.toNat + 4096 - a.toNat) % 4096, Nat.mod_lt _ (by decide), ?_⟩
  have hc := c.isLt
  have ha := a.isLt
  apply BitVec.eq_of_toNat_eq
  simp [addrPlus]; omega

/-- WHAT `storeBytes` DOES: the byte at offset `j` from its base is the `j`-th byte stored, or the old byte when fewer
were stored. -/
theorem State.readByte_storeBytes (s : State) (a : Addr) (bs : List Byte) (j : Nat) (hj : j < 4096)
    (hl : bs.length ≤ 4096) :
    (s.storeBytes a bs).readByte (addrPlus a j) = (bs[j]?).getD (s.readByte (addrPlus a j)) := by
  induction bs generalizing s a j with
  | nil => rfl
  | cons b bs ih =>
    simp only [State.storeBytes]
    simp only [List.length_cons] at hl
    cases j with
    | zero =>
      -- the first byte: no later byte of the list reaches it
      have h1 : addrPlus a 0 = addrPlus (addrPlus a 1) 4095 := by
        apply BitVec.eq_of_toNat_eq; simp [addrPlus]; omega
      rw [h1, ih _ _ 4095 (by omega) (by omega), ← h1]
      have h2 : bs[4095]? = none := List.getElem?_eq_none (by omega)
      simp [h2]
    | succ j =>
      have h1 : addrPlus a (j + 1) = addrPlus (addrPlus a 1) j := by rw [addrPlus_addrPlus, Nat.add_comm]
      rw [h1, ih _ _ j (by omega) (by omega), ← h1]
      have h2 : addrPlus a (j + 1) ≠ a := fun h => by
        have := addrPlus_inj a (j := j + 1) (k := 0) hj (by decide) (by simpa using h)
        omega
      simp [h2]

/-- The stored bytes and nothing else: an address that is no offset below the length reads as before. -/
theorem State.readByte_storeBytes_of_ne (s : State) (a c : Addr) (bs : List Byte)
    (h : ∀ j < bs.length, c ≠ addrPlus a j) : (s.storeBytes a bs).readByte c = s.readByte c := by
  induction bs generalizing s a with
  | nil => rfl
  | cons b bs ih =>
    have h0 : c ≠ a := by simpa using h 0 (by simp)
    have h1 : ∀ j < bs.length, c ≠ addrPlus (addrPlus a 1) j := fun j hj => by
      rw [addrPlus_addrPlus, Nat.add_comm]
      exact h (j + 1) (by simpa using hj)
    simp [State.storeBytes, ih _ _ h1, h0]

/-- THE CANONICAL FORM IS CANONICAL: lists in the form that read the same are equal. -/
theorem Memory.wfFrom_ext (m n : Memory) (lo : Nat) (hm : Memory.wfFrom lo m = true) (hn : Memory.wfFrom lo n = true)
    (h : ∀ a, Memory.read m a = Memory.read n a) : m = n := by
  induction m generalizing n lo with
  | nil =>
    cases n with
    | nil => rfl
    | cons e n =>
      obtain ⟨k, b⟩ := e
      simp only [Memory.wfFrom, Bool.and_eq_true, decide_eq_true_eq] at hn
      have := h k
      simp [Memory.read] at this
      exact absurd this.symm hn.1.2
  | cons e m ih =>
    obtain ⟨k, b⟩ := e
    simp only [Memory.wfFrom, Bool.and_eq_true, decide_eq_true_eq] at hm
    obtain ⟨⟨⟨hm1, hm2⟩, hm3⟩, hm4⟩ := hm
    cases n with
    | nil =>
      have := h k
      simp [Memory.read] at this
      exact absurd this hm3
    | cons f n =>
      obtain ⟨k', b'⟩ := f
      simp only [Memory.wfFrom, Bool.and_eq_true, decide_eq_true_eq] at hn
      obtain ⟨⟨⟨hn1, hn2⟩, hn3⟩, hn4⟩ := hn
      have hk : k = k' := by
        rcases Nat.lt_trichotomy k k' with hlt | heq | hgt
        · have h1 := h k
          have h2 := Memory.read_below n (k' + 1) k hn4 (by omega)
          have h3 : k' ≠ k := by omega
          simp [Memory.read, h3, h2] at h1
          exact absurd h1 hm3
        · exact heq
        · have h1 := h k'
          have h2 := Memory.read_below m (k + 1) k' hm4 (by omega)
          have h3 : k ≠ k' := by omega
          simp [Memory.read, h3, h2] at h1
          exact absurd h1.symm hn3
      subst hk
      have hb : b = b' := by simpa [Memory.read] using h k
      subst hb
      have hrest : ∀ a, Memory.read m a = Memory.read n a := fun a => by
        by_cases ha : k = a
        · subst ha
          rw [Memory.read_below m (k + 1) k hm4 (by omega), Memory.read_below n (k + 1) k hn4 (by omega)]
        · simpa [Memory.read, ha] using h a
      rw [ih n (k + 1) hm4 hn4 hrest]

end Sys2Proof.Machine
end

