-- ==== Sys2Proof/Laws/Ops.lean ====
section
/-! SUPPORT. What each named operation on registers, stack and keys does, said once. -/
namespace Sys2Proof.Machine

/-! ### Registers -/

@[simp] theorem State.reg_setReg (s : State) (x r : Nibble) (b : Byte) :
    (s.setReg x b).reg r = if r = x then b else s.reg r := by
  simp only [State.reg, State.setReg, Vector.getElem_set, ← BitVec.toNat_inj]
  by_cases h : x.toNat = r.toNat
  · simp [h]
  · simp [h, Ne.symm h]

@[simp] theorem State.reg_setFlag (s : State) (r : Nibble) (c : Bool) :
    (s.setFlag c).reg r = if r = 15 then flagByte c else s.reg r := by
  simp [State.setFlag]

/-- The result is written last: with `x = 15` it is what VF holds (70_reset_and_hazards.md R258). -/
@[simp] theorem State.reg_setFlagThenReg (s : State) (x r : Nibble) (c : Bool) (b : Byte) :
    (s.setFlagThenReg x c b).reg r = if r = x then b else if r = 15 then flagByte c else s.reg r := by
  simp [State.setFlagThenReg]

/-- States with equal readings of every register have equal register files. -/
theorem State.v_ext {s t : State} (h : ∀ r, s.reg r = t.reg r) : s.v = t.v := by
  apply Vector.ext
  intro i hi
  have := h (BitVec.ofNat 4 i)
  have hm : i % 16 = i := Nat.mod_eq_of_lt hi
  simpa [State.reg, hm] using this

@[simp] theorem State.regsBelow_length (s : State) (k : Nat) : (s.regsBelow k).length = k := by
  simp [State.regsBelow]

theorem State.regsBelow_getElem? (s : State) (k j : Nat) :
    (s.regsBelow k)[j]? = if j < k then some (s.reg (BitVec.ofNat 4 j)) else none := by
  by_cases h : j < k <;> simp [State.regsBelow, h]

@[simp] theorem State.regsBelow_getElem (s : State) (k j : Nat) (h : j < (s.regsBelow k).length) :
    (s.regsBelow k)[j] = s.reg (BitVec.ofNat 4 j) := by
  simp [State.regsBelow]

/-- WHAT `loadRegs` DOES: registers below the count are loaded, the others keep their values. -/
theorem State.reg_loadRegs (s : State) (k : Nat) (hk : k ≤ 16) (r : Nibble) :
    (s.loadRegs k).reg r = if r.toNat < k then s.readByte (addrPlus s.ireg r.toNat) else s.reg r := by
  induction k with
  | zero => simp [State.loadRegs]
  | succ k ih =>
    have hr := r.isLt
    have hm : (BitVec.ofNat 4 k).toNat = k := by simp; omega
    simp only [State.loadRegs, State.reg_setReg, ih (by omega), ← BitVec.toNat_inj, hm]
    by_cases h : r.toNat = k
    · simp [h]
    · by_cases h' : r.toNat < k
      · simp [h, h', Nat.lt_succ_of_lt h']
      · have : ¬ r.toNat < k + 1 := by omega
        simp [h, h', this]

/-! ### PC -/

theorem State.npc_eq (s : State) : s.npc = s.pc + 2 := addrPlus_two _

/-- A skip goes four bytes on, else two (40_flow.md R124). -/
@[simp] theorem State.skipIf_pc (s : State) (c : Bool) :
    (s.skipIf c).pc = if c then s.pc + 4 else s.pc + 2 := by
  cases c
  · exact s.npc_eq
  · exact (addrPlus_addrPlus s.pc 2 2).trans (addrPlus_eq_add s.pc 4)

/-! ### The call stack -/

/-- Push answers exactly when an entry is free. -/
theorem State.push_eq_none_iff (s : State) (a : PcAddr) : s.push a = none ↔ s.sp.val = params.stackDepth := by
  have h17 : s.sp.val < params.stackDepth + 1 := s.sp.isLt
  unfold State.push
  split
  · rename_i hlt
    exact ⟨fun e => (nomatch e), fun h => absurd h (Nat.ne_of_lt hlt)⟩
  · rename_i hlt
    exact ⟨fun _ => Nat.le_antisymm (Nat.le_of_lt_succ h17) (Nat.le_of_not_lt hlt), fun _ => rfl⟩

/-- WHAT `push` DOES: the entry at the old SP holds the address, SP counts one more, nothing else changes. -/
theorem State.push_some {s t : State} {a : PcAddr} (h : s.push a = some t) :
    ∃ hlt : s.sp.val < params.stackDepth, t = { s with
      stack := s.stack.set s.sp.val a hlt, sp := ⟨s.sp.val + 1, Nat.succ_lt_succ hlt⟩ } := by
  unfold State.push at h
  split at h
  · rename_i hlt; exact ⟨hlt, (Option.some.inj h).symm⟩
  · cases h

/-- Pop answers exactly when an entry is in use. -/
theorem State.pop_eq_none_iff (s : State) : s.pop = none ↔ s.sp.val = 0 := by
  unfold State.pop
  split
  · rename_i h
    exact ⟨fun e => (nomatch e), fun h0 => absurd h0 (Nat.ne_of_gt h)⟩
  · rename_i h
    exact ⟨fun _ => Nat.eq_zero_of_not_pos h, fun _ => rfl⟩

/-- WHAT `pop` DOES: it gives the entry below SP, SP counts one less, nothing else changes. -/
theorem State.pop_some {s t : State} {a : PcAddr} (h : s.pop = some (a, t)) :
    ∃ hlt : s.sp.val - 1 < params.stackDepth, 0 < s.sp.val ∧ a = s.stack[s.sp.val - 1] ∧
      t = { s with sp := ⟨s.sp.val - 1, Nat.lt_of_le_of_lt (Nat.sub_le _ _) s.sp.isLt⟩ } := by
  unfold State.pop at h
  split at h
  · rename_i hpos
    have hb : s.sp.val < params.stackDepth + 1 := s.sp.isLt
    simp only [Option.some.injEq, Prod.mk.injEq] at h
    exact ⟨by omega, hpos, h.1.symm, h.2.symm⟩
  · cases h

/-- A pop right after a push gives the pushed address and the old SP. -/
theorem State.pop_push {s t : State} {a : PcAddr} (h : s.push a = some t) :
    t.pop = some (a, { t with sp := s.sp }) := by
  obtain ⟨hlt, rfl⟩ := State.push_some h
  simp [State.pop]

/-! ### Keys -/

@[simp] theorem State.keyOn_setKey (s : State) (k j : Nibble) (b : Bool) :
    (s.setKey k b).keyOn j = if j = k then b else s.keyOn j := by
  simp only [State.keyOn, State.setKey, Vector.getElem_set, ← BitVec.toNat_inj]
  by_cases h : k.toNat = j.toNat
  · simp [h]
  · simp [h, Ne.symm h]

theorem mem_allKeys (k : Nibble) : k ∈ (List.range 16).map (BitVec.ofNat 4) := by
  simp only [List.mem_map, List.mem_range]
  exact ⟨k.toNat, k.isLt, by simp⟩

/-- No key is found exactly when none is pressed. -/
theorem State.leastKey_eq_none_iff (s : State) : s.leastKey = none ↔ ∀ k, s.keyOn k = false := by
  unfold State.leastKey
  rw [List.find?_eq_none]
  constructor
  · intro h k; simpa using h k (mem_allKeys k)
  · intro h k _; simp [h k]

/-- WHAT `leastKey` GIVES: a pressed key, below which none is pressed (44_keys_timers.md R197). -/
theorem State.leastKey_some {s : State} {k : Nibble} (h : s.leastKey = some k) :
    s.keyOn k = true ∧ ∀ j, s.keyOn j = true → k.toNat ≤ j.toNat := by
  have hp : s.keyOn k = true := by
    unfold State.leastKey at h
    exact List.find?_some h
  refine ⟨hp, fun j hj => ?_⟩
  unfold State.leastKey at h
  by_contra hlt
  rw [List.find?_eq_some_iff_getElem] at h
  obtain ⟨_, n, hn, hk, hmin⟩ := h
  have hn' : n < 16 := by simpa using hn
  have hkn : k.toNat = n := by
    have : BitVec.ofNat 4 n = k := by simpa using hk
    rw [← this]; simp; omega
  have := hmin j.toNat (by omega)
  simp [hj] at this

/-! ### Displays -/

/-- Displays with equal pixels are equal. -/
theorem Display.ext_pixel {d e : Display} (h : ∀ px py, px < 64 → py < 32 → d.pixel px py = e.pixel px py) :
    d = e := by
  apply Vector.ext
  intro i hi
  have h1 : i % 64 < 64 := Nat.mod_lt _ (by decide)
  have h2 : i / 64 < 32 := by omega
  have h3 : i % 64 + 64 * (i / 64) = i := by omega
  have := h (i % 64) (i / 64) h1 h2
  simpa [Display.pixel, h1, h2, h3] using this

@[simp] theorem Display.pixel_blank (px py : Nat) : Display.blank.pixel px py = false := by
  simp [Display.pixel, Display.blank]

@[simp] theorem State.pixel_setDisplay (s : State) (d : Display) (px py : Nat) :
    (s.setDisplay d).pixel px py = d.pixel px py := rfl

theorem Display.pixel_flip (d : Display) (px py qx qy : Nat) :
    (d.flip px py).pixel qx qy =
      if qx = px ∧ qy = py ∧ px < 64 ∧ py < 32 then !d.pixel qx qy else d.pixel qx qy := by
  unfold Display.flip
  by_cases hp : px < 64 ∧ py < 32
  · by_cases hq : qx < 64 ∧ qy < 32
    · obtain ⟨hp1, hp2⟩ := hp
      obtain ⟨hq1, hq2⟩ := hq
      by_cases he : qx = px ∧ qy = py
      · obtain ⟨rfl, rfl⟩ := he
        simp [Display.pixel, hp1, hp2]
      · have hne : px + 64 * py ≠ qx + 64 * qy := by omega
        have he' : ¬(qx = px ∧ qy = py ∧ px < 64 ∧ py < 32) := fun h => he ⟨h.1, h.2.1⟩
        simp [Display.pixel, hp1, hp2, hq1, hq2, hne]
        intro h1 h2; exact absurd ⟨h1, h2⟩ he
    · simp [Display.pixel, hp, hq]
      intro h1 h2
      exact hq ⟨by omega, by omega⟩
  · simp [hp]

end Sys2Proof.Machine
end

