-- ==== Sys2Proof/Laws/Display.lean ====
section
/-! SUPPORT. What the XOR blit does, pixel by pixel: the loop of 43_display.md R181 inverts exactly the pixels the
sprite covers inside the grid, and collides exactly on those that were lit. -/
namespace Sys2Proof.Machine

/-- The sprite whose rows are `bs`, with its left column at `x0` and its top row at `y0`, has a 1 bit for the pixel at
column `px`, row `py`; the leftmost pixel of a row is bit 7 (43_display.md R181, R182). -/
def spriteCovers (bs : List Byte) (x0 y0 px py : Nat) : Bool :=
  decide (x0 ≤ px) && decide (px < x0 + 8) && decide (y0 ≤ py) &&
    ((bs[py - y0]?).getD 0).getLsbD (7 - (px - x0))

theorem pixel_blitPixel (acc : Display × Bool) (bit : Bool) (px py qx qy : Nat) :
    (blitPixel acc bit px py).1.pixel qx qy =
      (acc.1.pixel qx qy ^^ (bit && decide (qx = px ∧ qy = py ∧ px < 64 ∧ py < 32))) := by
  unfold blitPixel
  by_cases hb : bit = true
  · by_cases hp : px ≤ 63 ∧ py ≤ 31
    · have h1 : px < 64 := by omega
      have h2 : py < 32 := by omega
      simp only [hb, hp.1, hp.2, decide_true, Bool.and_self, if_true, Display.pixel_flip, h1, h2, and_true]
      by_cases he : qx = px ∧ qy = py <;> simp [he]
    · have h3 : ¬(px < 64 ∧ py < 32) := by omega
      have h4 : (bit && decide (px ≤ 63) && decide (py ≤ 31)) = false := by
        rcases Nat.lt_or_ge 63 px with h | h
        · simp [Nat.not_le_of_lt h]
        · have : ¬ py ≤ 31 := by omega
          simp [this]
      have h5 : ¬(qx = px ∧ qy = py ∧ px < 64 ∧ py < 32) := fun h => h3 ⟨h.2.2.1, h.2.2.2⟩
      simp [h4, h5]
  · simp [Bool.not_eq_true _ ▸ hb]

theorem coll_blitPixel (acc : Display × Bool) (bit : Bool) (px py : Nat) :
    (blitPixel acc bit px py).2 = true ↔
      acc.2 = true ∨ (bit = true ∧ px < 64 ∧ py < 32 ∧ acc.1.pixel px py = true) := by
  unfold blitPixel
  split
  · rename_i h
    simp only [Bool.and_eq_true, decide_eq_true_eq] at h
    simp only [Bool.or_eq_true]
    constructor
    · rintro (h' | h')
      · exact .inl h'
      · exact .inr ⟨h.1.1, by omega, by omega, h'⟩
    · rintro (h' | h')
      · exact .inl h'
      · exact .inr h'.2.2.2
  · rename_i h
    simp only [Bool.and_eq_true, decide_eq_true_eq] at h
    exact ⟨.inl, fun h' => h'.elim id (fun h'' => absurd ⟨⟨h''.1, by omega⟩, by omega⟩ h)⟩

/-- The first `k` columns of a row. -/
theorem blitCols_spec (acc : Display × Bool) (b : Byte) (x0 py k : Nat) :
    let out := (List.range k).foldl (fun a c => blitPixel a (b.getLsbD (7 - c)) (x0 + c) py) acc
    (∀ qx qy, out.1.pixel qx qy = (acc.1.pixel qx qy ^^
      (decide (x0 ≤ qx ∧ qx < x0 + k ∧ qy = py ∧ qx < 64 ∧ py < 32) && b.getLsbD (7 - (qx - x0))))) ∧
    (out.2 = true ↔ acc.2 = true ∨
      ∃ c < k, b.getLsbD (7 - c) = true ∧ x0 + c < 64 ∧ py < 32 ∧ acc.1.pixel (x0 + c) py = true) := by
  induction k with
  | zero =>
    refine ⟨fun qx qy => ?_, by simp⟩
    have : ¬(x0 ≤ qx ∧ qx < x0 + 0 ∧ qy = py ∧ qx < 64 ∧ py < 32) := by omega
    rw [decide_eq_false this]
    simp
  | succ k ih =>
    simp only [List.range_succ, List.foldl_append, List.foldl_cons, List.foldl_nil]
    obtain ⟨ih1, ih2⟩ := ih
    refine ⟨fun qx qy => ?_, ?_⟩
    · rw [pixel_blitPixel, ih1]
      by_cases hk : qx = x0 + k
      · subst hk
        have h0 : ¬(x0 ≤ x0 + k ∧ x0 + k < x0 + k ∧ qy = py ∧ x0 + k < 64 ∧ py < 32) := by omega
        have h1 : x0 + k - x0 = k := by omega
        have h2 : (x0 ≤ x0 + k ∧ x0 + k < x0 + (k + 1) ∧ qy = py ∧ x0 + k < 64 ∧ py < 32) ↔
            (qy = py ∧ x0 + k < 64 ∧ py < 32) := by omega
        simp only [h0, h1, h2, true_and, decide_false, Bool.false_and, Bool.xor_false]
        rw [Bool.and_comm]
      · have h1 : ¬(qx = x0 + k ∧ qy = py ∧ x0 + k < 64 ∧ py < 32) := fun h => hk h.1
        have h2 : (x0 ≤ qx ∧ qx < x0 + (k + 1) ∧ qy = py ∧ qx < 64 ∧ py < 32) ↔
            (x0 ≤ qx ∧ qx < x0 + k ∧ qy = py ∧ qx < 64 ∧ py < 32) := by omega
        simp only [h1, h2, decide_false, Bool.and_false, Bool.xor_false]
    · rw [coll_blitPixel, ih2, ih1]
      have h0 : ¬(x0 ≤ x0 + k ∧ x0 + k < x0 + k ∧ True ∧ x0 + k < 64 ∧ py < 32) := by omega
      simp only [h0, decide_false, Bool.false_and, Bool.xor_false]
      constructor
      · rintro ((h | ⟨c, hc, h⟩) | h)
        · exact .inl h
        · exact .inr ⟨c, by omega, h⟩
        · exact .inr ⟨k, by omega, h⟩
      · rintro (h | ⟨c, hc, h⟩)
        · exact .inl (.inl h)
        · by_cases hck : c = k
          · subst hck; exact .inr h
          · exact .inl (.inr ⟨c, by omega, h⟩)

theorem blitRow_spec (acc : Display × Bool) (b : Byte) (x0 py : Nat) :
    (∀ qx qy, (blitRow acc b x0 py).1.pixel qx qy = (acc.1.pixel qx qy ^^
      (decide (x0 ≤ qx ∧ qx < x0 + 8 ∧ qy = py ∧ qx < 64 ∧ py < 32) && b.getLsbD (7 - (qx - x0))))) ∧
    ((blitRow acc b x0 py).2 = true ↔ acc.2 = true ∨
      ∃ c < 8, b.getLsbD (7 - c) = true ∧ x0 + c < 64 ∧ py < 32 ∧ acc.1.pixel (x0 + c) py = true) :=
  blitCols_spec acc b x0 py 8

/-- A covered pixel's bit in the first row or in the rows below it. -/
theorem spriteCovers_cons (b : Byte) (bs : List Byte) (x0 y0 qx qy : Nat) :
    spriteCovers (b :: bs) x0 y0 qx qy =
      ((decide (x0 ≤ qx ∧ qx < x0 + 8 ∧ qy = y0) && b.getLsbD (7 - (qx - x0))) ||
        spriteCovers bs x0 (y0 + 1) qx qy) := by
  unfold spriteCovers
  by_cases h1 : x0 ≤ qx
  · by_cases h2 : qx < x0 + 8
    · rcases Nat.lt_trichotomy qy y0 with h | h | h
      · have h3 : ¬ y0 ≤ qy := by omega
        have h4 : ¬ y0 + 1 ≤ qy := by omega
        have h5 : qy ≠ y0 := by omega
        simp [h3, h4, h5]
      · subst h
        have h4 : ¬ qy + 1 ≤ qy := by omega
        simp [h1, h2]
      · have h3 : y0 ≤ qy := by omega
        have h4 : y0 + 1 ≤ qy := by omega
        have h5 : qy ≠ y0 := by omega
        have h6 : qy - y0 = (qy - (y0 + 1)) + 1 := by omega
        simp [h1, h2, h3, h4, h5, h6]
    · simp [h2]
  · simp [h1]

/-- The rows below never cover the row above them. -/
theorem spriteCovers_above (bs : List Byte) (x0 y0 qx qy : Nat) (h : qy < y0) :
    spriteCovers bs x0 y0 qx qy = false := by
  have : ¬ y0 ≤ qy := by omega
  simp [spriteCovers, this]

/-- WHAT THE BLIT DOES: inside the grid each pixel is XORed with the sprite's bit for it. -/
theorem pixel_blitRows (acc : Display × Bool) (x0 : Nat) (bs : List Byte) (y0 qx qy : Nat) (hx : qx < 64)
    (hy : qy < 32) :
    (blitRows acc x0 bs y0).1.pixel qx qy = (acc.1.pixel qx qy ^^ spriteCovers bs x0 y0 qx qy) := by
  induction bs generalizing acc y0 with
  | nil => simp [blitRows, spriteCovers]
  | cons b bs ih =>
    simp only [blitRows]
    rw [ih, (blitRow_spec acc b x0 y0).1, spriteCovers_cons]
    by_cases h : qy = y0
    · subst h
      simp [spriteCovers_above bs x0 (qy + 1) qx qy (by omega), hx, hy]
    · simp [h]

/-- WHEN THE BLIT COLLIDES: some lit pixel inside the grid is covered. -/
theorem coll_blitRows (acc : Display × Bool) (x0 : Nat) (bs : List Byte) (y0 : Nat) :
    (blitRows acc x0 bs y0).2 = true ↔ acc.2 = true ∨
      ∃ qx qy, qx < 64 ∧ qy < 32 ∧ spriteCovers bs x0 y0 qx qy = true ∧ acc.1.pixel qx qy = true := by
  induction bs generalizing acc y0 with
  | nil => simp [blitRows, spriteCovers]
  | cons b bs ih =>
    simp only [blitRows]
    rw [ih, (blitRow_spec acc b x0 y0).2]
    constructor
    · rintro ((h | ⟨c, hc, hb, hx, hy, hp⟩) | ⟨qx, qy, hx, hy, hcov, hp⟩)
      · exact .inl h
      · refine .inr ⟨x0 + c, y0, hx, hy, ?_, hp⟩
        have : x0 + c - x0 = c := by omega
        simp [spriteCovers_cons, this, hb, hc]
      · refine .inr ⟨qx, qy, hx, hy, ?_, ?_⟩
        · simp [spriteCovers_cons, hcov]
        · rw [(blitRow_spec acc b x0 y0).1] at hp
          have hne : qy ≠ y0 := fun h => by
            rw [spriteCovers_above bs x0 (y0 + 1) qx qy (by omega)] at hcov; cases hcov
          simpa [hne] using hp
    · rintro (h | ⟨qx, qy, hx, hy, hcov, hp⟩)
      · exact .inl (.inl h)
      · rw [spriteCovers_cons, Bool.or_eq_true] at hcov
        rcases hcov with h | h
        · simp only [Bool.and_eq_true, decide_eq_true_eq] at h
          obtain ⟨⟨h1, h2, rfl⟩, hb⟩ := h
          refine .inl (.inr ⟨qx - x0, by omega, hb, by omega, hy, ?_⟩)
          have : x0 + (qx - x0) = qx := by omega
          rw [this]; exact hp
        · refine .inr ⟨qx, qy, hx, hy, h, ?_⟩
          rw [(blitRow_spec acc b x0 y0).1]
          have hne : qy ≠ y0 := fun h' => by
            rw [spriteCovers_above bs x0 (y0 + 1) qx qy (by omega)] at h; cases h
          simpa [hne] using hp

end Sys2Proof.Machine
end

