-- ==== Sys2Proof/Laws/Exec.lean ====
section
/-! SUPPORT. What `exec` answers for each instruction, in the named operations, and what the shared cycle does: said
once, so that no proof unfolds the dispatch. -/
namespace Sys2Proof.Machine

theorem exec_cls (u : Nibble) (s : State) : exec (.cls u) s = .next ((s.setDisplay Display.blank).advance) := rfl

theorem exec_jp (nnn : Addr) (s : State) : exec (.jp nnn) s = .next (s.setPc (pcOf nnn)) := rfl

theorem exec_seImm (x : Nibble) (kk : Byte) (s : State) : exec (.seImm x kk) s = .next (s.skipIf (decide (s.reg x = kk))) := rfl

theorem exec_sneImm (x : Nibble) (kk : Byte) (s : State) : exec (.sneImm x kk) s = .next (s.skipIf (decide (s.reg x ≠ kk))) := rfl

theorem exec_seReg (x y u : Nibble) (s : State) : exec (.seReg x y u) s = .next (s.skipIf (decide (s.reg x = s.reg y))) := rfl

theorem exec_sneReg (x y u : Nibble) (s : State) : exec (.sneReg x y u) s = .next (s.skipIf (decide (s.reg x ≠ s.reg y))) := rfl

theorem exec_jpV0 (nnn : Addr) (s : State) : exec (.jpV0 nnn) s = .next (s.setPc (jumpV0Target nnn (s.reg 0))) := rfl

theorem exec_ldImm (x : Nibble) (kk : Byte) (s : State) : exec (.ldImm x kk) s = .next ((s.setReg x kk).advance) := rfl

theorem exec_addImm (x : Nibble) (kk : Byte) (s : State) : exec (.addImm x kk) s = .next ((s.setReg x (addResult (s.reg x) kk)).advance) := rfl

theorem exec_ldReg (x y : Nibble) (s : State) : exec (.ldReg x y) s = .next ((s.setReg x (s.reg y)).advance) := rfl

theorem exec_orReg (x y : Nibble) (s : State) : exec (.orReg x y) s = .next ((s.setReg x (s.reg x ||| s.reg y)).advance) := rfl

theorem exec_andReg (x y : Nibble) (s : State) : exec (.andReg x y) s = .next ((s.setReg x (s.reg x &&& s.reg y)).advance) := rfl

theorem exec_xorReg (x y : Nibble) (s : State) : exec (.xorReg x y) s = .next ((s.setReg x (s.reg x ^^^ s.reg y)).advance) := rfl

theorem exec_addReg (x y : Nibble) (s : State) : exec (.addReg x y) s = .next ((s.setFlagThenReg x (addCarry (s.reg x) (s.reg y)) (addResult (s.reg x) (s.reg y))).advance) := rfl

theorem exec_subReg (x y : Nibble) (s : State) : exec (.subReg x y) s = .next ((s.setFlagThenReg x (subNoBorrow (s.reg x) (s.reg y)) (subResult (s.reg x) (s.reg y))).advance) := rfl

theorem exec_subnReg (x y : Nibble) (s : State) : exec (.subnReg x y) s = .next ((s.setFlagThenReg x (subNoBorrow (s.reg y) (s.reg x)) (subResult (s.reg y) (s.reg x))).advance) := rfl

theorem exec_shr (x y : Nibble) (s : State) : exec (.shr x y) s = .next ((s.setFlagThenReg x (shrOut (s.reg x)) (shrResult (s.reg x))).advance) := rfl

theorem exec_shl (x y : Nibble) (s : State) : exec (.shl x y) s = .next ((s.setFlagThenReg x (shlOut (s.reg x)) (shlResult (s.reg x))).advance) := rfl

theorem exec_rnd (x : Nibble) (kk : Byte) (s : State) : exec (.rnd x kk) s = .next (((s.setReg x (Config.randIn s.randCount &&& kk)).useRand).advance) := rfl

theorem exec_ldI (nnn : Addr) (s : State) : exec (.ldI nnn) s = .next ((s.setIndex nnn).advance) := rfl

theorem exec_addI (x : Nibble) (s : State) : exec (.addI x) s = .next (((s.setFlag (indexCarry s.ireg (s.reg x))).setIndex (indexSum s.ireg (s.reg x))).advance) := rfl

theorem exec_ldF (x : Nibble) (s : State) : exec (.ldF x) s = .next ((s.setIndex (glyphAddr (s.reg x))).advance) := rfl

theorem exec_ldB (x : Nibble) (s : State) : exec (.ldB x) s = .next ((s.storeBytes s.ireg (bcdDigits (s.reg x))).advance) := rfl

theorem exec_ldMemVx (x : Nibble) (s : State) : exec (.ldMemVx x) s = .next (((s.storeBytes s.ireg (s.regsBelow (x.toNat + 1))).setIndex (addrPlus s.ireg (x.toNat + 1))).advance) := rfl

theorem exec_ldVxMem (x : Nibble) (s : State) : exec (.ldVxMem x) s = .next (((s.loadRegs (x.toNat + 1)).setIndex (addrPlus s.ireg (x.toNat + 1))).advance) := rfl

theorem exec_drw (x y n : Nibble) (s : State) : exec (.drw x y n) s = .next ((((s.setDisplay (s.blit x y n).1).setFlag (s.blit x y n).2)).advance) := rfl

theorem exec_skp (x : Nibble) (s : State) : exec (.skp x) s = .next (s.skipIf (s.keyOn (keySelect (s.reg x)))) := rfl

theorem exec_sknp (x : Nibble) (s : State) : exec (.sknp x) s = .next (s.skipIf (!s.keyOn (keySelect (s.reg x)))) := rfl

theorem exec_ldVxDt (x : Nibble) (s : State) : exec (.ldVxDt x) s = .next ((s.setReg x s.dt).advance) := rfl

theorem exec_ldDtVx (x : Nibble) (s : State) : exec (.ldDtVx x) s = .next ((s.setDt (s.reg x)).advance) := rfl

theorem exec_ldStVx (x : Nibble) (s : State) : exec (.ldStVx x) s = .next ((s.setSt (s.reg x)).advance) := rfl

/-- Return, with an entry in use. -/
theorem exec_ret_some (u : Nibble) {s t : State} {a : PcAddr} (h : s.pop = some (a, t)) :
    exec (.ret u) s = .next (t.setPc a) := by
  simp [exec, execRet, h]

/-- Return, with none in use. -/
theorem exec_ret_none (u : Nibble) {s : State} (h : s.pop = none) :
    exec (.ret u) s = .next (s.raise .stackUnderflow (encode (.ret u)) s.pc) := by
  simp [exec, execRet, h]

/-- Call, with an entry free. -/
theorem exec_call_some (nnn : Addr) {s t : State} (h : s.push s.npc = some t) :
    exec (.call nnn) s = .next (t.setPc (pcOf nnn)) := by
  simp [exec, execCall, h]

/-- Call, with the stack full. -/
theorem exec_call_none (nnn : Addr) {s : State} (h : s.push s.npc = none) :
    exec (.call nnn) s = .next (s.raise .stackOverflow (encode (.call nnn)) s.pc) := by
  simp [exec, execCall, h]

/-- Wait-key, with a key pressed. -/
theorem exec_ldVxK_some (x : Nibble) {s : State} {k : Nibble} (h : s.leastKey = some k) :
    exec (.ldVxK x) s = .next (s.setReg x (k.setWidth 8)).advance := by
  simp [exec, execLdVxK, h]

/-- Wait-key, with none pressed. -/
theorem exec_ldVxK_none (x : Nibble) {s : State} (h : s.leastKey = none) :
    exec (.ldVxK x) s = .next (s.setPc s.pc) := by
  simp [exec, execLdVxK, h]

/-- Only Random looks at the byte supplied to the step. -/
theorem execWithRand_eq (r : Byte) (i : Instr) (s : State) :
    execWithRand r i s = exec i s ∨ ∃ x kk, i = .rnd x kk ∧
      execWithRand r i s = .next ((s.setReg x (r &&& kk)).useRand).advance := by
  cases i
  case rnd x kk => exact .inr ⟨x, kk, rfl, rfl⟩
  all_goals exact .inl rfl

/-- WHAT A CYCLE DOES: nothing in Halted, the decoded instruction, or the UnknownInstruction entry. -/
theorem cycle_cases (p : Params) (run : Instr → State → Result) (s : State) :
    (s.runState = .halted ∧ cycle p run s = .next s) ∨
    (s.runState = .running ∧ ∃ i, decodeWith p (s.fetchWord s.pc) = .ok i ∧ cycle p run s = run i s) ∨
    (s.runState = .running ∧ ∃ e, decodeWith p (s.fetchWord s.pc) = .error e ∧
      cycle p run s = .next (s.raise .unknownInstruction (s.fetchWord s.pc) s.pc)) := by
  unfold cycle
  cases hr : s.runState with
  | halted => exact .inl ⟨rfl, rfl⟩
  | running =>
    cases hd : decodeWith p (s.fetchWord s.pc) with
    | ok i => exact .inr (.inl ⟨rfl, i, rfl, rfl⟩)
    | error e => exact .inr (.inr ⟨rfl, e, rfl, rfl⟩)

/-- HOW AN INSTRUCTION TOUCHES THE RUN STATE AND THE FAULT RECORD: not at all, or as Return on an empty stack, or as
Call on a full one. -/
theorem exec_cases {i : Instr} {s t : State} (h : exec i s = .next t) :
    (t.runState = s.runState ∧ t.errKind = s.errKind ∧ t.errWord = s.errWord ∧ t.errPc = s.errPc) ∨
    (∃ u, i = .ret u ∧ s.sp.val = 0 ∧ t = s.raise .stackUnderflow (encode (.ret u)) s.pc) ∨
    (∃ nnn, i = .call nnn ∧ s.sp.val = params.stackDepth ∧ t = s.raise .stackOverflow (encode (.call nnn)) s.pc) := by
  cases i
  case ret u =>
    cases hp : s.pop with
    | none =>
      rw [exec_ret_none u hp] at h
      exact .inr (.inl ⟨u, rfl, s.pop_eq_none_iff.1 hp, (Host.Outcome.next.inj h).symm⟩)
    | some r =>
      obtain ⟨a, t'⟩ := r
      rw [exec_ret_some u hp] at h
      obtain ⟨_, _, _, rfl⟩ := State.pop_some hp
      obtain rfl := Host.Outcome.next.inj h
      exact .inl ⟨rfl, rfl, rfl, rfl⟩
  case call nnn =>
    cases hp : s.push s.npc with
    | none =>
      rw [exec_call_none nnn hp] at h
      exact .inr (.inr ⟨nnn, rfl, (s.push_eq_none_iff _).1 hp, (Host.Outcome.next.inj h).symm⟩)
    | some t' =>
      rw [exec_call_some nnn hp] at h
      obtain ⟨_, rfl⟩ := State.push_some hp
      obtain rfl := Host.Outcome.next.inj h
      exact .inl ⟨rfl, rfl, rfl, rfl⟩
  case ldVxK x =>
    cases hk : s.leastKey with
    | none => rw [exec_ldVxK_none x hk] at h; obtain rfl := Host.Outcome.next.inj h; exact .inl ⟨rfl, rfl, rfl, rfl⟩
    | some k => rw [exec_ldVxK_some x hk] at h; obtain rfl := Host.Outcome.next.inj h; exact .inl ⟨rfl, rfl, rfl, rfl⟩
  case ldB x => rw [exec_ldB] at h; obtain rfl := Host.Outcome.next.inj h; simp
  case ldMemVx x => rw [exec_ldMemVx] at h; obtain rfl := Host.Outcome.next.inj h; simp
  case ldVxMem x => rw [exec_ldVxMem] at h; obtain rfl := Host.Outcome.next.inj h; simp
  all_goals (obtain rfl := Host.Outcome.next.inj h; exact .inl (by simp))

end Sys2Proof.Machine
end

