-- ==== Sys2Proof/Laws/Events.lean ====
section
/-! SUPPORT. What a tick does to each timer, what a store leaves alone in the terms of the frame, and which pixels the
sprite of a Draw covers in the terms of Safety.lean. -/
namespace Sys2Proof.Machine

open Sys2Proof.Safety

/-- WHAT A TICK DOES TO DT: one less, or still 0 (60_exceptions.md R221). -/
theorem tickDelay_eq (s : State) : tickDelay s = s.setDt (BitVec.ofNat 8 (s.dt.toNat - 1)) := by
  unfold tickDelay
  split
  · rename_i h
    have : BitVec.ofNat 8 (s.dt.toNat - 1) = s.dt := by simp [h]
    rw [this]; rfl
  · rename_i h
    have h0 : s.dt.toNat ≠ 0 := fun h' => h (by apply BitVec.eq_of_toNat_eq; simpa using h')
    have := s.dt.isLt
    congr 1; apply BitVec.eq_of_toNat_eq; simp; omega

/-- WHAT A TICK DOES TO ST: one less, or still 0; it requests a beep exactly when ST was 1 (60_exceptions.md R222). -/
theorem tickSound_eq (s : State) : tickSound s =
    { s.setSt (BitVec.ofNat 8 (s.st.toNat - 1)) with
      beepRequested := s.beepRequested || decide (s.st.toNat = 1) } := by
  unfold tickSound
  split
  · rename_i h
    have h1 : BitVec.ofNat 8 (s.st.toNat - 1) = s.st := by simp [h]
    have h2 : decide (s.st.toNat = 1) = false := by simp [h]
    rw [h1, h2, Bool.or_false]; rfl
  · rename_i h
    have h0 : s.st.toNat ≠ 0 := fun h' => h (by apply BitVec.eq_of_toNat_eq; simpa using h')
    have h1 := s.st.isLt
    have e : s.st - 1 = BitVec.ofNat 8 (s.st.toNat - 1) := by apply BitVec.eq_of_toNat_eq; simp; omega
    have d : decide (s.st - 1 = 0) = decide (s.st.toNat = 1) := by
      rw [decide_eq_decide, ← BitVec.toNat_inj]; simp; omega
    rw [d, e]

/-- A byte that is none of those stored reads as before. -/
theorem readByte_storeBytes_of_not_mem (s : State) (a : Addr) (bs : List Byte) (c : Addr)
    (h : Part.byte c ∉ bytesFrom a bs.length) : (s.storeBytes a bs).readByte c = s.readByte c :=
  s.readByte_storeBytes_of_ne a c bs (fun j hj hc => h (by simp only [bytesFrom, List.mem_map, List.mem_range]; exact ⟨j, hj, by rw [hc]⟩))

/-- What the blit of a Draw covers is what `DrawCovers` says. -/
theorem spriteCovers_iff_drawCovers (s : State) (x y n : Nibble) (px py : Nat) :
    spriteCovers (s.spriteRows n.toNat) (drawColumn (s.reg x)) (drawRow (s.reg y)) px py = true ↔
      DrawCovers s x y n px py := by
  have h := (s.reg y).isLt
  unfold spriteCovers DrawCovers drawColumn drawRow drawYModulus
  rw [Nat.mod_eq_of_lt (show (s.reg y).toNat < 256 from h)]
  simp only [Bool.and_eq_true, decide_eq_true_eq, and_assoc]
  by_cases hy : (s.reg y).toNat ≤ py
  · by_cases hn : py < (s.reg y).toNat + n.toNat
    · have : (s.spriteRows n.toNat)[py - (s.reg y).toNat]? =
          some (s.readByte (addrPlus s.ireg (py - (s.reg y).toNat))) := by
        simp [State.spriteRows, show py - (s.reg y).toNat < n.toNat by omega]
      simp [this, hn, hy, addrPlus_eq_add]; intro _; omega
    · have : (s.spriteRows n.toNat)[py - (s.reg y).toNat]? = none := by
        simp [State.spriteRows]; omega
      simp [this, hn]
  · simp [hy]

/-- A Draw's collision flag, pixel by pixel (43_display.md R181). -/
theorem blit_collides_iff (s : State) (x y n : Nibble) : (s.blit x y n).2 = true ↔
    ∃ px py, px < 64 ∧ py < 32 ∧ DrawCovers s x y n px py ∧ s.pixel px py = true := by
  unfold State.blit
  rw [coll_blitRows]
  simp [spriteCovers_iff_drawCovers, State.pixel]

end Sys2Proof.Machine
end

