-- ==== Sys2Proof/Laws/PerInstr.lean ====
section
/-! SUPPORT. The family OpcodeRow: every instruction's word lies in its own row of the opcode map (30_encoding.md R95),
one lemma per constructor. -/
namespace Sys2Proof.Laws.OpcodeRow

/-- The encoded word selects the instruction's row. -/
def Statement (i : Instr) : Prop := encode i &&& i.rowMask = i.rowMatch

/-- A word of three parts under a mask: bit by bit. -/
theorem xyn_bits (op x y n : Nibble) (m r : Word)
    (h : ∀ i, i < 16 → ((if i < 4 then n.getLsbD i else if i < 8 then y.getLsbD (i - 4) else if i < 12 then
      x.getLsbD (i - 8) else op.getLsbD (i - 12)) && m.getLsbD i) = r.getLsbD i) : wordXYN op x y n &&& m = r := by
  apply BitVec.eq_of_getLsbD_eq
  intro i hi
  rw [BitVec.getLsbD_and, getLsbD_wordXYN]
  exact h i hi

theorem cls (u : Nibble) : Statement (.cls u) := by
  simp only [Statement, encode, Instr.rowMask, Instr.rowMatch, wordXKK_eq]
  exact xyn_bits _ _ _ _ _ _ (fun i hi => by interval_cases i <;> simp)

theorem ret (u : Nibble) : Statement (.ret u) := by
  simp only [Statement, encode, Instr.rowMask, Instr.rowMatch, wordXKK_eq]
  exact xyn_bits _ _ _ _ _ _ (fun i hi => by interval_cases i <;> simp)

theorem jp (nnn : Addr) : Statement (.jp nnn) := by
  simp only [Statement, encode, Instr.rowMask, Instr.rowMatch, wordNNN_eq]
  exact xyn_bits _ _ _ _ _ _ (fun i hi => by interval_cases i <;> simp)

theorem call (nnn : Addr) : Statement (.call nnn) := by
  simp only [Statement, encode, Instr.rowMask, Instr.rowMatch, wordNNN_eq]
  exact xyn_bits _ _ _ _ _ _ (fun i hi => by interval_cases i <;> simp)

theorem seImm (x : Nibble) (kk : Byte) : Statement (.seImm x kk) := by
  simp only [Statement, encode, Instr.rowMask, Instr.rowMatch, wordXKK_eq]
  exact xyn_bits _ _ _ _ _ _ (fun i hi => by interval_cases i <;> simp)

theorem sneImm (x : Nibble) (kk : Byte) : Statement (.sneImm x kk) := by
  simp only [Statement, encode, Instr.rowMask, Instr.rowMatch, wordXKK_eq]
  exact xyn_bits _ _ _ _ _ _ (fun i hi => by interval_cases i <;> simp)

theorem seReg (x y u : Nibble) : Statement (.seReg x y u) := by
  simp only [Statement, encode, Instr.rowMask, Instr.rowMatch]
  exact xyn_bits _ _ _ _ _ _ (fun i hi => by interval_cases i <;> simp)

theorem ldImm (x : Nibble) (kk : Byte) : Statement (.ldImm x kk) := by
  simp only [Statement, encode, Instr.rowMask, Instr.rowMatch, wordXKK_eq]
  exact xyn_bits _ _ _ _ _ _ (fun i hi => by interval_cases i <;> simp)

theorem addImm (x : Nibble) (kk : Byte) : Statement (.addImm x kk) := by
  simp only [Statement, encode, Instr.rowMask, Instr.rowMatch, wordXKK_eq]
  exact xyn_bits _ _ _ _ _ _ (fun i hi => by interval_cases i <;> simp)

theorem ldReg (x y : Nibble) : Statement (.ldReg x y) := by
  simp only [Statement, encode, Instr.rowMask, Instr.rowMatch]
  exact xyn_bits _ _ _ _ _ _ (fun i hi => by interval_cases i <;> simp)

theorem orReg (x y : Nibble) : Statement (.orReg x y) := by
  simp only [Statement, encode, Instr.rowMask, Instr.rowMatch]
  exact xyn_bits _ _ _ _ _ _ (fun i hi => by interval_cases i <;> simp)

theorem andReg (x y : Nibble) : Statement (.andReg x y) := by
  simp only [Statement, encode, Instr.rowMask, Instr.rowMatch]
  exact xyn_bits _ _ _ _ _ _ (fun i hi => by interval_cases i <;> simp)

theorem xorReg (x y : Nibble) : Statement (.xorReg x y) := by
  simp only [Statement, encode, Instr.rowMask, Instr.rowMatch]
  exact xyn_bits _ _ _ _ _ _ (fun i hi => by interval_cases i <;> simp)

theorem addReg (x y : Nibble) : Statement (.addReg x y) := by
  simp only [Statement, encode, Instr.rowMask, Instr.rowMatch]
  exact xyn_bits _ _ _ _ _ _ (fun i hi => by interval_cases i <;> simp)

theorem subReg (x y : Nibble) : Statement (.subReg x y) := by
  simp only [Statement, encode, Instr.rowMask, Instr.rowMatch]
  exact xyn_bits _ _ _ _ _ _ (fun i hi => by interval_cases i <;> simp)

theorem shr (x y : Nibble) : Statement (.shr x y) := by
  simp only [Statement, encode, Instr.rowMask, Instr.rowMatch]
  exact xyn_bits _ _ _ _ _ _ (fun i hi => by interval_cases i <;> simp)

theorem subnReg (x y : Nibble) : Statement (.subnReg x y) := by
  simp only [Statement, encode, Instr.rowMask, Instr.rowMatch]
  exact xyn_bits _ _ _ _ _ _ (fun i hi => by interval_cases i <;> simp)

theorem shl (x y : Nibble) : Statement (.shl x y) := by
  simp only [Statement, encode, Instr.rowMask, Instr.rowMatch]
  exact xyn_bits _ _ _ _ _ _ (fun i hi => by interval_cases i <;> simp)

theorem sneReg (x y u : Nibble) : Statement (.sneReg x y u) := by
  simp only [Statement, encode, Instr.rowMask, Instr.rowMatch]
  exact xyn_bits _ _ _ _ _ _ (fun i hi => by interval_cases i <;> simp)

theorem ldI (nnn : Addr) : Statement (.ldI nnn) := by
  simp only [Statement, encode, Instr.rowMask, Instr.rowMatch, wordNNN_eq]
  exact xyn_bits _ _ _ _ _ _ (fun i hi => by interval_cases i <;> simp)

theorem jpV0 (nnn : Addr) : Statement (.jpV0 nnn) := by
  simp only [Statement, encode, Instr.rowMask, Instr.rowMatch, wordNNN_eq]
  exact xyn_bits _ _ _ _ _ _ (fun i hi => by interval_cases i <;> simp)

theorem rnd (x : Nibble) (kk : Byte) : Statement (.rnd x kk) := by
  simp only [Statement, encode, Instr.rowMask, Instr.rowMatch, wordXKK_eq]
  exact xyn_bits _ _ _ _ _ _ (fun i hi => by interval_cases i <;> simp)

theorem drw (x y n : Nibble) : Statement (.drw x y n) := by
  simp only [Statement, encode, Instr.rowMask, Instr.rowMatch]
  exact xyn_bits _ _ _ _ _ _ (fun i hi => by interval_cases i <;> simp)

theorem skp (x : Nibble) : Statement (.skp x) := by
  simp only [Statement, encode, Instr.rowMask, Instr.rowMatch, wordXKK_eq]
  exact xyn_bits _ _ _ _ _ _ (fun i hi => by interval_cases i <;> simp)

theorem sknp (x : Nibble) : Statement (.sknp x) := by
  simp only [Statement, encode, Instr.rowMask, Instr.rowMatch, wordXKK_eq]
  exact xyn_bits _ _ _ _ _ _ (fun i hi => by interval_cases i <;> simp)

theorem ldVxDt (x : Nibble) : Statement (.ldVxDt x) := by
  simp only [Statement, encode, Instr.rowMask, Instr.rowMatch, wordXKK_eq]
  exact xyn_bits _ _ _ _ _ _ (fun i hi => by interval_cases i <;> simp)

theorem ldVxK (x : Nibble) : Statement (.ldVxK x) := by
  simp only [Statement, encode, Instr.rowMask, Instr.rowMatch, wordXKK_eq]
  exact xyn_bits _ _ _ _ _ _ (fun i hi => by interval_cases i <;> simp)

theorem ldDtVx (x : Nibble) : Statement (.ldDtVx x) := by
  simp only [Statement, encode, Instr.rowMask, Instr.rowMatch, wordXKK_eq]
  exact xyn_bits _ _ _ _ _ _ (fun i hi => by interval_cases i <;> simp)

theorem ldStVx (x : Nibble) : Statement (.ldStVx x) := by
  simp only [Statement, encode, Instr.rowMask, Instr.rowMatch, wordXKK_eq]
  exact xyn_bits _ _ _ _ _ _ (fun i hi => by interval_cases i <;> simp)

theorem addI (x : Nibble) : Statement (.addI x) := by
  simp only [Statement, encode, Instr.rowMask, Instr.rowMatch, wordXKK_eq]
  exact xyn_bits _ _ _ _ _ _ (fun i hi => by interval_cases i <;> simp)

theorem ldF (x : Nibble) : Statement (.ldF x) := by
  simp only [Statement, encode, Instr.rowMask, Instr.rowMatch, wordXKK_eq]
  exact xyn_bits _ _ _ _ _ _ (fun i hi => by interval_cases i <;> simp)

theorem ldB (x : Nibble) : Statement (.ldB x) := by
  simp only [Statement, encode, Instr.rowMask, Instr.rowMatch, wordXKK_eq]
  exact xyn_bits _ _ _ _ _ _ (fun i hi => by interval_cases i <;> simp)

theorem ldMemVx (x : Nibble) : Statement (.ldMemVx x) := by
  simp only [Statement, encode, Instr.rowMask, Instr.rowMatch, wordXKK_eq]
  exact xyn_bits _ _ _ _ _ _ (fun i hi => by interval_cases i <;> simp)

theorem ldVxMem (x : Nibble) : Statement (.ldVxMem x) := by
  simp only [Statement, encode, Instr.rowMask, Instr.rowMatch, wordXKK_eq]
  exact xyn_bits _ _ _ _ _ _ (fun i hi => by interval_cases i <;> simp)

end Sys2Proof.Laws.OpcodeRow
end

