-- ==== Sys2Proof/Tests/Slice0.lean ====
section
/-! SUPPORT. Tests. Expected results come from the spec: a vector's id (F1, A14, M9, G3, K8, S3 ...) is a row of
95_test_vectors.md; where no id stands, the rule named was applied by hand. Last, a witness for the hypotheses of every
obligation that has some. -/
namespace Sys2Proof.Tests

open Sys2Proof.Machine Sys2Proof.Safety

/-- The result is a next state that passes the check. -/
def okWith (r : Result) (q : State → Bool) : Bool :=
  match r with
  | .next t => q t
  | .fault _ => false
  | .refused _ => false

/-- One step of `s` with the word placed at its PC. -/
def run (w : Nat) (s : State) (q : State → Bool) : Bool := okWith (step (s.withFetchWord 16 w)) q

/-- The same with other parameter values. -/
def runWith (p : Params) (w : Nat) (s : State) (q : State → Bool) : Bool :=
  okWith (cycle p exec (s.withFetchWord 16 w)) q

/-- The reset state with two registers set. -/
def regs (x : Nibble) (a : Byte) (y : Nibble) (b : Byte) : State := (State.reset.setReg x a).setReg y b

/-- The reset state with `sp` entries in use, entry `k` holding `0x300 + k`. -/
def stacked (sp : Fin 17) : State :=
  { State.reset with sp := sp, stack := Vector.ofFn (fun k => BitVec.ofNat 12 (0x300 + k.val)) }

/-- The reset state with `I` at 0x300 and these bytes there. -/
def at300 (bs : List Byte) : State := (State.reset.setIndex 0x300).storeBytes 0x300 bs

/-- The reset state with these keys pressed. -/
def keys (ks : List Nibble) : State := ks.foldl (fun s k => s.setKey k true) State.reset

/-- The reset state, Halted. -/
def haltedState : State := State.reset.raise .unknownInstruction 0 0x200

/-! ### Well-formedness: what each check refuses -/

theorem test_skp_is_ill_formed_here : (Instr.skp 5).wellFormed = false ∧ (Instr.sknp 5).wellFormed = true := by decide

theorem test_sne_reg_is_ill_formed_without_it :
    (Instr.sneReg 1 2 0).presentIn { params with hasSneReg := false } = false ∧
    (Instr.sneReg 1 2 0).wellFormed = true := by decide

theorem test_jp_v0_is_ill_formed_without_it :
    (Instr.jpV0 0x300).presentIn { params with hasJpV0 := false } = false ∧
    (Instr.jpV0 0x300).wellFormed = true := by decide

theorem test_unused_bits_are_not_canonical :
    (Instr.cls 1).canonical = false ∧ (Instr.ret 0xF).canonical = false ∧ (Instr.seReg 1 2 1).canonical = false ∧
    (Instr.sneReg 1 2 7).canonical = false ∧ (Instr.shr 1 2).canonical = false ∧ (Instr.shl 1 2).canonical = false ∧
    (Instr.cls 0).canonical = true ∧ (Instr.shr 1 0).canonical = true := by decide

/-! ### Decode: every constructor from a word written out from 30_encoding.md R95 -/

theorem test_decode_families_0_to_7 :
    decode 0x00E0 = .ok (.cls 0x0) ∧ decode 0x01E0 = .ok (.cls 0x1) ∧ decode 0x00EE = .ok (.ret 0x0) ∧
    decode 0x0AEE = .ok (.ret 0xA) ∧ decode 0x1234 = .ok (.jp 0x234) ∧ decode 0x220E = .ok (.call 0x20E) ∧
    decode 0x332A = .ok (.seImm 0x3 0x2A) ∧ decode 0x432A = .ok (.sneImm 0x3 0x2A) ∧
    decode 0x512F = .ok (.seReg 0x1 0x2 0xF) ∧ decode 0x6AFF = .ok (.ldImm 0xA 0xFF) ∧
    decode 0x730A = .ok (.addImm 0x3 0x0A) := by decide

theorem test_decode_family_8 :
    decode 0x8120 = .ok (.ldReg 0x1 0x2) ∧ decode 0x8341 = .ok (.orReg 0x3 0x4) ∧
    decode 0x8562 = .ok (.andReg 0x5 0x6) ∧ decode 0x8783 = .ok (.xorReg 0x7 0x8) ∧
    decode 0x8124 = .ok (.addReg 0x1 0x2) ∧ decode 0x8125 = .ok (.subReg 0x1 0x2) ∧
    decode 0x81F6 = .ok (.shr 0x1 0xF) ∧ decode 0x8127 = .ok (.subnReg 0x1 0x2) ∧
    decode 0x813E = .ok (.shl 0x1 0x3) := by decide

theorem test_decode_families_9_to_d :
    decode 0x9127 = .ok (.sneReg 0x1 0x2 0x7) ∧ decode 0xA2F0 = .ok (.ldI 0x2F0) ∧
    decode 0xB300 = .ok (.jpV0 0x300) ∧ decode 0xC30F = .ok (.rnd 0x3 0x0F) ∧
    decode 0xD012 = .ok (.drw 0x0 0x1 0x2) := by decide

theorem test_decode_families_e_and_f :
    decodeWith { params with hasSkp := true } 0xE59E = .ok (.skp 0x5) ∧ decode 0xE5A1 = .ok (.sknp 0x5) ∧
    decode 0xF307 = .ok (.ldVxDt 0x3) ∧ decode 0xF10A = .ok (.ldVxK 0x1) ∧ decode 0xF315 = .ok (.ldDtVx 0x3) ∧
    decode 0xF318 = .ok (.ldStVx 0x3) ∧ decode 0xF21E = .ok (.addI 0x2) ∧ decode 0xF429 = .ok (.ldF 0x4) ∧
    decode 0xF033 = .ok (.ldB 0x0) ∧ decode 0xF255 = .ok (.ldMemVx 0x2) ∧ decode 0xF265 = .ok (.ldVxMem 0x2) := by
  decide

/-- Section 2.6 of the vectors, all of its unknown words. -/
theorem test_unknown_words_are_rejected :
    (([0x0000, 0x0123, 0x00E1, 0x00FF, 0x8008, 0x8129, 0x812A, 0x812B] ++
      [0x812C, 0x812D, 0x812F, 0xE000, 0xE19E, 0xE1A0, 0xE1A2, 0xF000] ++
      [0xF108, 0xF10B, 0xF116, 0xF11F, 0xF130, 0xF156, 0xF166, 0xF1FF] : List Word)).all
      (fun (w : Word) => decide (decode w = .error (.unknownInstruction w))) = true := by decide

/-- The rows that parameters take out (R97), F19, F22, K4. -/
theorem test_absent_rows_are_unknown :
    decode 0xE59E = .error (.unknownInstruction 0xE59E) ∧
    decodeWith { params with hasSneReg := false } 0x9120 = .error (.unknownInstruction 0x9120) ∧
    decodeWith { params with hasJpV0 := false } 0xB300 = .error (.unknownInstruction 0xB300) := by decide

/-- The words the encoder gives back, and bytes in the order they are stored (R90, 20_memory.md R61). -/
theorem test_encode :
    encode (.call 0x20E) = 0x220E ∧ encode (.drw 0 1 2) = 0xD012 ∧ encode (.shl 1 3) = 0x813E ∧
    encodeBytes (.ldI 0x2F0) = [0xA2, 0xF0] ∧ decodeTableWord 16 0xA2F0 = some (.ldI 0x2F0) := by decide

theorem test_decode_bytes :
    decodeBytes [0x6A, 0x2C, 0x99] = .ok (.ldImm 0xA 0x2C, [0x99]) ∧ decodeBytes [0x6A] = .error (.truncated 1) ∧
    decodeBytes [] = .error (.truncated 0) := by decide

/-- S1: the six fields. -/
theorem test_fields : fieldOp 0x6A2C = 6 ∧ fieldX 0x6A2C = 0xA ∧ fieldY 0x6A2C = 2 ∧ fieldN 0x6A2C = 0xC ∧
    fieldKK 0x6A2C = 0x2C ∧ fieldNNN 0x6A2C = 0xA2C := by decide

/-! ### Reset -/

/-- 10_state.md R31, R40: the glyphs of 0, A and F stand at 0x000, 0x032 and 0x04B, and 0 follows the font. -/
theorem test_font_at_reset :
    (List.range 5).map (fun k => Memory.read State.reset.mem k) = [0xF0, 0x90, 0x90, 0x90, 0xF0] ∧
    (List.range 5).map (fun k => Memory.read State.reset.mem (0x032 + k)) = [0xF0, 0x90, 0xF0, 0x90, 0x90] ∧
    (List.range 6).map (fun k => Memory.read State.reset.mem (0x04B + k)) = [0xF0, 0x80, 0xF0, 0x80, 0x80, 0x00] := by
  decide

/-- 00_scope.md R8, third column. -/
theorem test_params : params.stackDepth = 16 ∧ params.pcWidth = 12 ∧ params.hasSkp = false ∧
    params.hasSneReg = true ∧ params.hasJpV0 = true := by decide

/-! ### Control transfer -/

/-- F6. -/
theorem test_ret : run 0x00EE { stacked 2 with stack := ((stacked 2).stack.set 1 0x456) } (fun t =>
    t.pc == 0x456 && t.sp == 1 && t.stack[1] == 0x456) = true := by decide

/-- F7. -/
theorem test_ret_underflow : run 0x00EE State.reset (fun t => t.halted && t.errKindOut == 3 && t.errWord == 0x00EE &&
    t.errPc == 0x200 && t.pc == 0x200) = true := by decide

/-- F1, and F2 at another place. -/
theorem test_jp : run 0x1234 State.reset (fun t => t.pc == 0x234) = true ∧
    run 0x120C (State.reset.setPc 0x20C) (fun t => t.pc == 0x20C) = true := by decide

/-- F4. -/
theorem test_call_wraps : run 0x2300 (State.reset.setPc 0xFFE) (fun t =>
    t.stack[0] == 0x000 && t.sp == 1 && t.pc == 0x300) = true := by decide

/-- F5, and the last free entry. -/
theorem test_call_overflow : run 0x2300 (stacked 16) (fun t => t.halted && t.errKindOut == 2 && t.errWord == 0x2300 &&
      t.errPc == 0x200 && t.pc == 0x200 && t.sp == 16) = true ∧
    run 0x2300 (stacked 15) (fun t => t.pc == 0x300 && t.sp == 16 && t.stack[15] == 0x202) = true := by decide

/-- F9, F10. -/
theorem test_se_imm : run 0x332A (State.reset.setReg 3 0x2A) (fun t => t.pc == 0x204) = true ∧
    run 0x332A (State.reset.setReg 3 0x2B) (fun t => t.pc == 0x202) = true := by decide

/-- F11, F12. -/
theorem test_sne_imm : run 0x432A (State.reset.setReg 3 0x2A) (fun t => t.pc == 0x202) = true ∧
    run 0x432A State.reset (fun t => t.pc == 0x204) = true := by decide

/-- F14, F16. -/
theorem test_se_reg : run 0x5120 (regs 1 7 2 8) (fun t => t.pc == 0x202) = true ∧
    run 0x5121 (regs 1 7 2 7) (fun t => t.pc == 0x204) = true := by decide

/-- F17, F18. -/
theorem test_sne_reg : run 0x9120 (regs 1 7 2 8) (fun t => t.pc == 0x204) = true ∧
    run 0x9120 (regs 1 7 2 7) (fun t => t.pc == 0x202) = true := by decide

/-- F20, F21. -/
theorem test_jp_v0 : run 0xB300 (State.reset.setReg 0 0x04) (fun t => t.pc == 0x304) = true ∧
    run 0xBFFF (State.reset.setReg 0 0xFF) (fun t => t.pc == 0x0FE) = true := by decide

/-- F23, F24: the skip and the plain advance wrap. -/
theorem test_pc_wraps : run 0x3000 (State.reset.setPc 0xFFC) (fun t => t.pc == 0x000) = true ∧
    run 0x3000 ((State.reset.setPc 0xFFE).setReg 0 1) (fun t => t.pc == 0x000) = true := by decide

/-- F25: the second byte comes from 0x000. -/
theorem test_fetch_wraps : okWith (step ((State.reset.setPc 0xFFF).storeBytes 0xFFF [0x12])) (fun t =>
    t.pc == 0x2F0) = true := by decide

/-! ### Loads, arithmetic, logic, shifts, random -/

/-- A1, A2. -/
theorem test_ld_imm : run 0x6AFF State.reset (fun t => t.reg 10 == 0xFF && t.pc == 0x202) = true ∧
    run 0x6F01 (State.reset.setReg 15 7) (fun t => t.reg 15 == 1) = true := by decide

/-- S2, A3: VF untouched. -/
theorem test_add_imm : run 0x730A (regs 3 250 15 1) (fun t => t.reg 3 == 4 && t.reg 15 == 1) = true ∧
    run 0x7301 (State.reset.setReg 3 0xFF) (fun t => t.reg 3 == 0 && t.reg 15 == 0) = true := by decide

/-- A5. -/
theorem test_ld_reg : run 0x8120 (State.reset.setReg 2 0x5A) (fun t => t.reg 1 == 0x5A && t.reg 2 == 0x5A) = true := by
  decide

/-- A6, with VF left alone. -/
theorem test_or : run 0x8121 ((regs 1 0xF0 2 0x0F).setReg 15 1) (fun t => t.reg 1 == 0xFF && t.reg 15 == 1) = true := by
  decide

/-- A7. -/
theorem test_and : run 0x8122 ((regs 1 0xF0 2 0x3C).setReg 15 1) (fun t =>
    t.reg 1 == 0x30 && t.reg 15 == 1) = true := by decide

/-- A8, A9. -/
theorem test_xor : run 0x8123 ((regs 1 0xF0 2 0x3C).setReg 15 1) (fun t => t.reg 1 == 0xCC && t.reg 15 == 1) = true ∧
    run 0x8113 (State.reset.setReg 1 0xA5) (fun t => t.reg 1 == 0) = true := by decide

/-- S3, A10. -/
theorem test_add : run 0x8124 (regs 1 200 2 100) (fun t => t.reg 1 == 44 && t.reg 15 == 1 && t.reg 2 == 100) = true ∧
    run 0x8124 (regs 1 255 15 7) (fun t => t.reg 1 == 255 && t.reg 15 == 0) = true := by decide

/-- A13, A14: VF as the addend and VF as the destination. -/
theorem test_add_vf : run 0x81F4 (regs 1 10 15 3) (fun t => t.reg 1 == 13 && t.reg 15 == 0) = true ∧
    run 0x8F14 (regs 15 200 1 100) (fun t => t.reg 15 == 44) = true := by decide

/-- S5, A15: a borrow, and equal operands. -/
theorem test_sub : run 0x8125 (regs 1 5 2 10) (fun t => t.reg 1 == 251 && t.reg 15 == 0) = true ∧
    run 0x8125 (regs 1 7 2 7) (fun t => t.reg 1 == 0 && t.reg 15 == 1) = true := by decide

/-- A18, A22. -/
theorem test_sub_vf : run 0x8F15 (regs 15 5 1 10) (fun t => t.reg 15 == 251) = true ∧
    run 0x8F17 (regs 15 10 1 5) (fun t => t.reg 15 == 251) = true := by decide

/-- A19, A20: the operands the other way round. -/
theorem test_subn : run 0x8127 (regs 1 10 2 5) (fun t => t.reg 1 == 251 && t.reg 15 == 0 && t.reg 2 == 5) = true ∧
    run 0x8127 (regs 1 5 2 10) (fun t => t.reg 1 == 5 && t.reg 15 == 1) = true := by decide

/-- A26, A27: `V[y]` is not used. -/
theorem test_shr : run 0x8106 (State.reset.setReg 15 1) (fun t => t.reg 1 == 0 && t.reg 15 == 0) = true ∧
    run 0x8126 (regs 1 0x05 2 0xF0) (fun t => t.reg 1 == 0x02 && t.reg 2 == 0xF0 && t.reg 15 == 1) = true := by decide

/-- A29, A32. -/
theorem test_shl : run 0x810E (State.reset.setReg 1 0x81) (fun t => t.reg 1 == 0x02 && t.reg 15 == 1) = true ∧
    run 0x812E (regs 1 0x40 2 0xFF) (fun t => t.reg 1 == 0x80 && t.reg 2 == 0xFF && t.reg 15 == 0) = true := by decide

/-- A28, A33. -/
theorem test_shift_vf : run 0x8F06 (State.reset.setReg 15 0x05) (fun t => t.reg 15 == 0x02) = true ∧
    run 0x8F0E (State.reset.setReg 15 0x81) (fun t => t.reg 15 == 0x02) = true := by decide

/-- A34, A36, with the byte as the step event's argument. -/
theorem test_rnd : okWith (stepEvent 0xB7 (State.reset.withFetchWord 16 0xC30F)) (fun t =>
      t.reg 3 == 0x07 && t.pc == 0x202) = true ∧
    okWith (stepEvent 0xB7 (State.reset.withFetchWord 16 0xC3FF)) (fun t => t.reg 3 == 0xB7) = true := by decide

/-! ### Index register and memory -/

/-- M1. -/
theorem test_ld_i : run 0xA2F0 State.reset (fun t => t.ireg == 0x2F0) = true := by decide

/-- M4, M4b: exactly 0xFFF is no carry, one more is. -/
theorem test_add_i : run 0xF21E (((State.reset.setIndex 0xF00).setReg 2 0xFF).setReg 15 7) (fun t =>
      t.ireg == 0xFFF && t.reg 15 == 0) = true ∧
    run 0xF21E ((State.reset.setIndex 0xF01).setReg 2 0xFF) (fun t => t.ireg == 0 && t.reg 15 == 1) = true := by decide

/-- M4d: VF is the addend and takes the flag. -/
theorem test_add_i_vf : run 0xFF1E ((State.reset.setIndex 0x100).setReg 15 1) (fun t =>
    t.ireg == 0x101 && t.reg 15 == 0) = true := by decide

/-- M5, M8: the whole byte. -/
theorem test_ld_f : run 0xF429 (State.reset.setReg 4 0x0A) (fun t => t.ireg == 0x032) = true ∧
    run 0xF429 (State.reset.setReg 4 0xFF) (fun t => t.ireg == 0x4FB) = true := by decide

/-- M9, M9f: the digits in order, and across the end of memory. -/
theorem test_bcd : run 0xF033 ((State.reset.setIndex 0x300).setReg 0 234) (fun t => t.readByte 0x300 == 2 &&
      t.readByte 0x301 == 3 && t.readByte 0x302 == 4 && t.ireg == 0x300) = true ∧
    run 0xF033 ((State.reset.setIndex 0xFFF).setReg 0 123) (fun t => t.readByte 0xFFF == 1 &&
      t.readByte 0x000 == 2 && t.readByte 0x001 == 3) = true := by decide

/-- M10, M10d. -/
theorem test_dump : run 0xF255 (((regs 0 0x11 1 0x22).setReg 2 0x33).setIndex 0x400) (fun t =>
      t.readByte 0x400 == 0x11 && t.readByte 0x401 == 0x22 && t.readByte 0x402 == 0x33 && t.readByte 0x403 == 0 &&
      t.ireg == 0x403) = true ∧
    run 0xF155 ((regs 0 0x11 1 0x22).setIndex 0xFFF) (fun t =>
      t.readByte 0xFFF == 0x11 && t.readByte 0 == 0x22 && t.ireg == 1) = true := by decide

/-- M11, M11c. -/
theorem test_load : run 0xF265 ((at300 [2, 3, 4]).setReg 3 0x99) (fun t =>
      t.reg 0 == 2 && t.reg 1 == 3 && t.reg 2 == 4 && t.reg 3 == 0x99 && t.ireg == 0x303) = true ∧
    run 0xF165 ((State.reset.storeBytes 0xFFF [0x5A]).setIndex 0xFFF) (fun t =>
      t.reg 0 == 0x5A && t.reg 1 == 0xF0 && t.ireg == 1) = true := by decide

/-! ### Display -/

/-- G1, a lit pixel and VF. -/
theorem test_cls : run 0x00E0 { State.reset.setReg 15 1 with disp := Display.blank.flip 5 0 } (fun t =>
    t.pixel 5 0 == false && t.displayChanged && t.reg 15 == 1) = true := by decide

/-- G5: columns 64 and up are clipped. -/
theorem test_draw_clips : run 0xD011 ((at300 [0xFF]).setReg 0 60) (fun t => t.pixel 59 0 == false && t.pixel 60 0 &&
    t.pixel 63 0 && t.pixel 0 0 == false && t.pixel 0 1 == false && t.reg 15 == 0) = true := by decide

/-- G9: one pixel goes out and collides, the other comes on. -/
theorem test_draw_collides : run 0xD011 { at300 [0xC0] with disp := Display.blank.flip 0 0 } (fun t =>
    t.pixel 0 0 == false && t.pixel 1 0 && t.reg 15 == 1 && t.displayChanged && t.ireg == 0x300) = true := by decide

/-! ### Keys and timers -/

/-- K1, K3. -/
theorem test_sknp : run 0xE5A1 (State.reset.setReg 5 7) (fun t => t.pc == 0x204) = true ∧
    run 0xE5A1 ((keys [7]).setReg 5 0x17) (fun t => t.pc == 0x202) = true := by decide

/-- K5, K6. -/
theorem test_skp : runWith { params with hasSkp := true } 0xE59E ((keys [7]).setReg 5 7) (fun t =>
      t.pc == 0x204) = true ∧
    runWith { params with hasSkp := true } 0xE59E (State.reset.setReg 5 7) (fun t => t.pc == 0x202) = true := by decide

/-- K7, K8. -/
theorem test_wait_key : run 0xF10A (State.reset.setReg 1 0x55) (fun t => t.pc == 0x200 && t.reg 1 == 0x55) = true ∧
    run 0xF10A (keys [9, 3]) (fun t => t.reg 1 == 3 && t.pc == 0x202) = true := by decide

/-- K10. -/
theorem test_get_delay : run 0xF307 (State.reset.setDt 0x2C) (fun t => t.reg 3 == 0x2C) = true := by decide

/-- K11. -/
theorem test_set_delay : run 0xF315 (State.reset.setReg 3 60) (fun t => t.dt == 60 && t.st == 0) = true := by decide

/-- K13: no beep request. -/
theorem test_set_sound : run 0xF318 (State.reset.setSt 5) (fun t => t.st == 0 && t.beepRequested == false) = true := by
  decide

/-! ### Events -/

/-- K14, K17: both timers, and the request as ST reaches 0. -/
theorem test_tick : okWith (applyEvents [.tick, .tick, .tick] (State.reset.setDt 7)) (fun t =>
      t.dt == 4 && t.st == 0 && t.beepRequested == false) = true ∧
    okWith (applyEvent .tick (State.reset.setSt 1)) (fun t => t.st == 0 && t.beepRequested) = true ∧
    okWith (applyEvent .tick (State.reset.setSt 2)) (fun t => t.st == 1 && t.beepRequested == false) = true := by decide

/-- K19. -/
theorem test_tick_in_halted : okWith (applyEvent .tick ((haltedState.setDt 9).setSt 1)) (fun t =>
    t.dt == 9 && t.st == 1 && t.beepRequested == false) = true := by decide

/-- K20, K21, K18. -/
theorem test_keys_and_acknowledges :
    okWith (applyEvents [.keyDown 4, .keyDown 4] State.reset) (fun t => t.keyOn 4) = true ∧
    okWith (applyEvents [.keyDown 4, .keyUp 4] State.reset) (fun t => t.keyOn 4 == false) = true ∧
    okWith (applyEvent .ackDisplay { State.reset with displayChanged := true }) (fun t =>
      t.displayChanged == false) = true ∧
    okWith (applyEvents [.ackBeep, .tick] { State.reset with beepRequested := true }) (fun t =>
      t.beepRequested == false) = true := by decide

/-- R252, R250: a load goes to 0x200 upward; a reset undoes it and leaves Halted. -/
theorem test_rom_load_and_reset :
    okWith (applyEvent (.romLoad [0xA2, 0x0C]) State.reset) (fun t =>
      t.readByte 0x200 == 0xA2 && t.readByte 0x201 == 0x0C && t.readByte 0x202 == 0) = true ∧
    okWith (applyEvents [.romLoad [0, 0], .step 0, .reset] (State.reset.setReg 1 9)) (fun t =>
      t.reg 1 == 0 && t.halted == false && t.errKindOut == 0 && t.readByte 0 == 0xF0) = true := by decide

/-- P6 (a): with no program the first step halts. -/
theorem test_no_program : okWith (step State.reset) (fun t =>
    t.halted && t.errKindOut == 1 && t.errWord == 0 && t.errPc == 0x200 && t.pc == 0x200) = true := by decide

/-- F19, F22: a step on a row the parameters take out. -/
theorem test_absent_row_halts :
    runWith { params with hasSneReg := false } 0x9120 State.reset (fun t =>
      t.halted && t.errKindOut == 1 && t.errWord == 0x9120) = true ∧
    runWith { params with hasJpV0 := false } 0xB300 State.reset (fun t =>
      t.halted && t.errKindOut == 1 && t.errWord == 0xB300 && t.pc == 0x200) = true := by decide

/-! ### Witnesses: for each obligation with hypotheses, states and operands that meet all of them, at the ends of the
ranges where a hypothesis gives one -/

theorem test_witness_decode_of_encode : (Instr.skp 15).presentIn { params with hasSkp := true } = true ∧
    (Instr.ldVxMem 0).presentIn { params with hasSneReg := false, hasJpV0 := false } = true := by decide

theorem test_witness_encode_of_decode : decodeWith params 0x813E = .ok (.shl 1 3) := by decide

theorem test_witness_decode_follows_the_map : decodeWith params 0x81F6 = .ok (.shr 1 0xF) ∧
    (Instr.shr 1 0).presentIn params = true ∧ (0x81F6 : Word) &&& (Instr.shr 1 0).rowMask = (Instr.shr 1 0).rowMatch := by
  decide

/-- The third clause: the word 0xE59E selects no row this hardware has, nor does 0x0000. -/
theorem test_witness_no_row_selected : ∀ j : Instr, j.presentIn params = true →
    (0xE59E : Word) &&& j.rowMask ≠ j.rowMatch ∧ (0x0000 : Word) &&& j.rowMask ≠ j.rowMatch := by
  intro j h
  cases j
  case skp => cases h
  all_goals (simp only [Instr.rowMask, Instr.rowMatch]; decide)

theorem test_witness_two_rows : (0x8126 : Word) &&& (Instr.shr 1 2).rowMask = (Instr.shr 1 2).rowMatch ∧
    (0x8126 : Word) &&& (Instr.shr 0 0).rowMask = (Instr.shr 0 0).rowMatch := by decide

theorem test_witness_unused_bits : (stacked 1).sp.val ≠ 0 ∧ (stacked 16).sp.val ≠ 0 := by decide

theorem test_witness_step_runs : (State.reset.withFetchWord 16 0xF255).runState = .running ∧
    decode ((State.reset.withFetchWord 16 0xF255).fetchWord (State.reset.withFetchWord 16 0xF255).pc) =
      .ok (.ldMemVx 2) := by decide

theorem test_witness_stored_instruction : decode 0xF255 = .ok (.ldMemVx 2) := by decide

theorem test_witness_unknown_word : State.reset.runState = .running ∧
    decode (State.reset.fetchWord State.reset.pc) = .error (.unknownInstruction 0) := by decide

/-- A step that halts, for each of its three causes. -/
theorem test_witness_halting_steps :
    (∃ t, step State.reset = .next t ∧ t.runState = .halted) ∧
    (∃ t, step (State.reset.withFetchWord 16 0x00EE) = .next t ∧ t.runState = .halted) ∧
    (∃ t, step ((stacked 16).withFetchWord 16 0x2300) = .next t ∧ t.runState = .halted) :=
  ⟨⟨_, rfl, rfl⟩, ⟨_, rfl, rfl⟩, ⟨_, rfl, rfl⟩⟩

/-- The invariant before a step that goes on, a step that halts and a step in Halted. -/
theorem test_witness_step_keeps_the_invariant :
    (Inv (State.reset.withFetchWord 16 0xF055) ∧ ∃ t, step (State.reset.withFetchWord 16 0xF055) = .next t) ∧
    (Inv State.reset ∧ ∃ t, step State.reset = .next t) ∧
    (Inv haltedState ∧ ∃ t, step haltedState = .next t) :=
  ⟨⟨⟨by decide, rfl, rfl⟩, _, rfl⟩, ⟨⟨by decide, rfl, rfl⟩, _, rfl⟩, ⟨by decide, rfl, by decide, by decide⟩, _, rfl⟩

theorem test_witness_events_keep_the_invariant : Inv State.reset ∧
    ∃ t, applyEvents [.romLoad [0x12, 0x00], .step 0, .tick, .keyDown 3, .reset] State.reset = .next t :=
  ⟨⟨by decide, rfl, rfl⟩, _, rfl⟩

theorem test_witness_reset_event : ∃ t, applyEvent .reset haltedState = .next t := ⟨_, rfl⟩

theorem test_witness_return : 0 < (stacked 1).sp.val ∧ 0 < (stacked 16).sp.val ∧ State.reset.sp.val = 0 := by decide

theorem test_witness_call : State.reset.sp.val < 16 ∧ (stacked 15).sp.val < 16 ∧ (stacked 16).sp.val = 16 := by decide

/-- A destination other than VF: the operand hypothesis of the additions, subtractions and shifts. -/
theorem test_witness_not_vf : (0 : Nibble) ≠ 15 ∧ (14 : Nibble) ≠ 15 := by decide

theorem test_witness_dump_then_load :
    ∃ t, exec (.ldMemVx 1) (regs 0 0x11 1 0x22) = .next t ∧
      ({ t with v := State.reset.v, ireg := State.reset.ireg } : State).ireg = (regs 0 0x11 1 0x22).ireg ∧
      ∀ a, ({ t with v := State.reset.v, ireg := State.reset.ireg } : State).readByte a = t.readByte a :=
  ⟨_, rfl, rfl, fun _ => rfl⟩

/-- The last column of a sprite at column 60 is 63, covered; the pixel before the sprite and the row below it are not;
the pixel covered is not lit, so nothing collides there. -/
theorem test_witness_draw_covers :
    DrawCovers ((at300 [0xFF]).setReg 0 60) 0 1 1 63 0 ∧ ¬ DrawCovers ((at300 [0xFF]).setReg 0 60) 0 1 1 59 0 ∧
    ¬ DrawCovers ((at300 [0xFF]).setReg 0 60) 0 1 1 63 1 := by
  unfold DrawCovers; decide

/-- A covered pixel that is lit, and (with a blank display) none that is. -/
theorem test_witness_draw_collision :
    (∃ px py, px < 64 ∧ py < 32 ∧ DrawCovers { at300 [0x80] with disp := Display.blank.flip 0 0 } 0 1 1 px py ∧
      ({ at300 [0x80] with disp := Display.blank.flip 0 0 } : State).pixel px py = true) ∧
    (¬ ∃ px py, px < 64 ∧ py < 32 ∧ DrawCovers (at300 [0x80]) 0 1 1 px py ∧ (at300 [0x80]).pixel px py = true) := by
  refine ⟨⟨0, 0, by decide, by decide, ?_, by decide⟩, ?_⟩
  · unfold DrawCovers; decide
  · rintro ⟨px, py, _, _, _, h⟩
    have : (at300 [0x80]).pixel px py = Display.blank.pixel px py := rfl
    rw [this, Display.pixel_blank] at h
    exact absurd h (by decide)

/-- Row 32 is the first off the grid; with no rows any origin will do. -/
theorem test_witness_draw_off_the_grid : 32 ≤ (((at300 [0xFF]).setReg 1 32).reg 1).toNat ∧
    ¬ 32 ≤ (((at300 [0xFF]).setReg 1 31).reg 1).toNat ∧ (0 : Nibble) = 0 := by decide

theorem test_witness_drawing_twice :
    ∃ t, exec (.drw 0 1 1) (at300 [0x80]) = .next t ∧ t.disp = t.disp ∧ t.ireg = (at300 [0x80]).ireg ∧
      (∀ r, r < (1 : Nibble).toNat → t.readByte (addrPlus (at300 [0x80]).ireg r) =
        (at300 [0x80]).readByte (addrPlus (at300 [0x80]).ireg r)) ∧
      (t.reg 0).toNat % 64 = ((at300 [0x80]).reg 0).toNat % 64 ∧ t.reg 1 = (at300 [0x80]).reg 1 := by
  refine ⟨_, exec_drw 0 1 1 _, rfl, rfl, fun _ _ => rfl, ?_, ?_⟩ <;> simp

/-- The first draw with VF as its column, the second with another register that holds the column VF held. -/
theorem test_witness_drawing_twice_by_other_registers :
    ∃ t, exec (.drw 15 1 1) (((at300 [0x80]).setReg 15 3).setReg 2 3) = .next t ∧ t.ireg = (at300 [0x80]).ireg ∧
      (t.reg 2).toNat % 64 = (((at300 [0x80]).setReg 15 3).reg 15).toNat % 64 ∧ t.reg 1 = (at300 [0x80]).reg 1 := by
  refine ⟨_, exec_drw 15 1 1 _, rfl, ?_, ?_⟩ <;> simp

/-- The selected key pressed, and not. -/
theorem test_witness_key_skips : (7 : Nibble).toNat = (((keys [7]).setReg 5 0x17).reg 5).toNat % 16 ∧
    ((keys [7]).setReg 5 0x17).keyOn 7 = true ∧
    (15 : Nibble).toNat = (((keys [7]).setReg 5 0xFF).reg 5).toNat % 16 ∧
    ((keys [7]).setReg 5 0xFF).keyOn 15 = false := by decide

theorem test_witness_wait_key :
    ((keys [9, 3]).keyOn 3 = true ∧ ∀ j : Nibble, (keys [9, 3]).keyOn j = true → (3 : Nibble).toNat ≤ j.toNat) ∧
    ((keys [15]).keyOn 15 = true ∧ ∀ j : Nibble, (keys [15]).keyOn j = true → (15 : Nibble).toNat ≤ j.toNat) ∧
    (∀ k : Nibble, State.reset.keyOn k = false) := by decide

theorem test_witness_running : State.reset.runState = .running ∧ haltedState.runState = .halted := by decide

/-- The longest program that fits, and one byte more. -/
theorem test_witness_rom_lengths : State.reset.runState = .running ∧
    (List.replicate 3584 (0 : Byte)).length ≤ 3584 ∧ 3584 < (List.replicate 3585 (0 : Byte)).length := by
  refine ⟨rfl, ?_, ?_⟩ <;> rw [List.length_replicate]
  decide

theorem test_witness_only_reset_leaves_halted : haltedState.runState = .halted ∧
    Event.reset ∉ [Event.tick, .step 0, .keyDown 3, .romLoad [0x12]] ∧
    ∃ t, applyEvents [.tick, .step 0, .keyDown 3, .romLoad [0x12]] haltedState = .next t :=
  ⟨rfl, by decide, _, rfl⟩

theorem test_witness_writes : (∃ t, exec (.ldMemVx 2) State.reset = .next t) ∧
    (∃ t, exec (.ret 0) State.reset = .next t) ∧ ∃ t, exec (.call 0x300) (stacked 15) = .next t :=
  ⟨⟨_, rfl⟩, ⟨_, rfl⟩, _, rfl⟩

/-- States that differ in ST, a flag, a latch and a stack entry above SP, with equal counters of consumed bytes. -/
theorem test_witness_same_to_programs : SameToPrograms (stacked 1) { stacked 1 with
    st := 9, displayChanged := true, errPc := 7, stack := (stacked 1).stack.set 1 0x777 } ∧
    SameToPrograms (stacked 1) { stacked 1 with randCount := 5 } := by
  refine ⟨⟨rfl, fun k hk => ?_⟩, rfl, fun _ _ => rfl⟩
  obtain rfl : k = 0 := Nat.lt_one_iff.1 hk
  decide

theorem test_witness_end_of_run : EndOfRun (State.reset.withFetchWord 16 0x1200) := ⟨rfl, by decide⟩

theorem test_witness_parts : Memory.wf (at300 [7, 8]).mem = true ∧ OnlyChanges [] (at300 [7, 8]) (at300 [7, 8]) :=
  ⟨by decide, fun p _ => by cases p <;> rfl⟩

end Sys2Proof.Tests
end

section
/-! Fetch reads its word big-endian (20_memory.md R61): what a word of two bytes is as a number, and the address of the
second byte. -/
namespace Sys2Proof.Machine

/-- The first byte of a word is its high one. -/
theorem toNat_wordOfBytes (hi lo : Byte) : (wordOfBytes hi lo).toNat = hi.toNat * 256 + lo.toNat := by
  have hlo : lo.toNat < 2 ^ 8 := lo.isLt
  calc (wordOfBytes hi lo).toNat
      = hi.toNat <<< 8 ||| lo.toNat := BitVec.toNat_append hi lo
    _ = hi.toNat <<< 8 + lo.toNat := (Nat.shiftLeft_add_eq_or_of_lt hlo hi.toNat).symm
    _ = hi.toNat * 256 + lo.toNat := by rw [Nat.shiftLeft_eq]

/-- Both bytes of a fetch by addresses of memory, whose addition wraps from 0xFFF to 0. -/
theorem State.fetchWord_eq_wordOfBytes (s : State) (a : PcAddr) :
    s.fetchWord a = wordOfBytes (s.readByte (memAddr a)) (s.readByte (memAddr a + 1)) := by
  rw [State.fetchWord, addrPlus_eq_add]
  rfl

/-- Settles O8: the fetched word is made of the two bytes, the one at the fetched address as the high byte. -/
theorem fetchIsBigEndian : Obligations.FetchIsBigEndian := by
  intro s a
  rw [s.fetchWord_eq_wordOfBytes, toNat_wordOfBytes]

end Sys2Proof.Machine
end

section
/-! Control transfer without the stack (40_flow.md R121, R124 to R126): the frame of a write of PC and of a skip. -/
namespace Sys2Proof.Machine

open Sys2Proof.Safety

/-- The frame of every instruction whose one effect is on PC. -/
theorem onlyChanges_setPc (s : State) (a : PcAddr) : OnlyChanges [.pc] s (s.setPc a) := by
  intro p hp
  cases p
  case pc => exact absurd (List.mem_singleton_self Part.pc) hp
  all_goals rfl

/-- Skipping or not, a skip is one write of PC. -/
theorem onlyChanges_skipIf (s : State) (c : Bool) : OnlyChanges [.pc] s (s.skipIf c) := by
  cases c
  · exact onlyChanges_setPc s s.npc
  · exact onlyChanges_setPc s (pcPlus s.npc 2)

/-- Settles O22: a jump is one write of PC, and at this hardware's PC_WIDTH no bit of the target is lost. -/
theorem jumpSetsPc : Obligations.JumpSetsPc := by
  intro nnn s
  refine ⟨s.setPc (pcOf nnn), exec_jp nnn s, onlyChanges_setPc s (pcOf nnn), ?_⟩
  rw [State.setPc_pc, pcOf_eq]

/-- Settles O26: each of the three is `skipIf` on its comparison, the skip on inequality with its two targets
exchanged. -/
theorem skipsCompareRegisters : Obligations.SkipsCompareRegisters := by
  intro x y u kk s
  refine ⟨⟨_, exec_seImm x kk s, onlyChanges_skipIf s _, ?_⟩, ⟨_, exec_sneImm x kk s, onlyChanges_skipIf s _, ?_⟩,
    ⟨_, exec_seReg x y u s, onlyChanges_skipIf s _, ?_⟩⟩
  · simp only [State.skipIf_pc, decide_eq_true_eq]
  · simp only [State.skipIf_pc, decide_eq_true_eq, ne_eq, ite_not]
  · simp only [State.skipIf_pc, decide_eq_true_eq]

end Sys2Proof.Machine
end

section
/-! Loads and sums with an immediate byte (41_alu.md R140, R141). Every instruction that writes one register and goes on
to the next instruction ends in `(s.setReg x b).advance`: its frame, its PC and its destination are said here once. -/
namespace Sys2Proof.Machine

open Sys2Proof.Safety

/-- The frame of every instruction whose one effect but PC is on one register. -/
theorem onlyChanges_setReg_advance (s : State) (x : Nibble) (b : Byte) :
    OnlyChanges [.pc, .reg x] s (s.setReg x b).advance := by
  intro p hp
  cases p
  case reg r =>
    have hr : r ≠ x := by simpa using hp
    simp [Unchanged, hr]
  case pc => exact absurd (List.mem_cons_self ..) hp
  all_goals rfl

theorem State.pc_setReg_advance (s : State) (x : Nibble) (b : Byte) : (s.setReg x b).advance.pc = s.pc + 2 := by
  rw [State.advance_pc, State.setReg_npc, State.npc_eq]

theorem State.reg_setReg_advance_self (s : State) (x : Nibble) (b : Byte) : (s.setReg x b).advance.reg x = b := by
  rw [State.advance_reg, State.reg_setReg, if_pos rfl]

theorem toNat_addResult (a b : Byte) : (addResult a b).toNat = (a.toNat + b.toNat) % 256 :=
  BitVec.toNat_ofNat (a.toNat + b.toNat) 8

/-- Settles O28: both write the one register `x`, so VF is kept by the frame unless it is `x`; the sum is narrowed to a
byte. -/
theorem loadAndAddImmediate : Obligations.LoadAndAddImmediate := by
  intro x kk s
  refine ⟨⟨_, exec_ldImm x kk s, onlyChanges_setReg_advance s x _, s.pc_setReg_advance x _, ?_⟩,
    ⟨_, exec_addImm x kk s, onlyChanges_setReg_advance s x _, s.pc_setReg_advance x _, ?_⟩⟩
  · exact s.reg_setReg_advance_self x kk
  · rw [State.reg_setReg_advance_self, toNat_addResult]

end Sys2Proof.Machine
end

section
/-! The frame, step by step (00_scope.md R13): one frame per operation on the state, and how the frames of the operations
that follow each other in a meaning are put together. -/
namespace Sys2Proof.Safety

open Sys2Proof.Machine

theorem Unchanged.trans {s t u : State} {p : Part} (h : Unchanged s t p) (h' : Unchanged t u p) : Unchanged s u p := by
  cases p <;> exact Eq.trans h' h

/-- The frame of one operation after another. -/
theorem OnlyChanges.trans {s t u : State} {may may' : List Part} (h : OnlyChanges may s t)
    (h' : OnlyChanges may' t u) : OnlyChanges (may' ++ may) s u := by
  intro p hp
  rw [List.mem_append, not_or] at hp
  obtain ⟨hmay', hmay⟩ := hp
  exact (h p hmay).trans (h' p hmay')

theorem onlyChanges_setIndex (s : State) (a : Addr) : OnlyChanges [.index] s (s.setIndex a) := by
  intro p hp
  cases p
  case index => exact absurd (List.mem_singleton_self Part.index) hp
  all_goals rfl

theorem onlyChanges_setFlag (s : State) (c : Bool) : OnlyChanges [.reg 15] s (s.setFlag c) := by
  intro p hp
  cases p
  case reg r =>
    have hr : r ≠ 15 := by simpa using hp
    exact (s.reg_setFlag r c).trans (if_neg hr)
  all_goals rfl

theorem onlyChanges_storeBytes (s : State) (a : Addr) (bs : List Byte) :
    OnlyChanges (bytesFrom a bs.length) s (s.storeBytes a bs) := by
  intro p hp
  cases p
  case byte c => exact readByte_storeBytes_of_not_mem s a bs c hp
  all_goals simp [Unchanged]

theorem mem_regsBelow {k : Nat} {r : Nibble} (h : r.toNat < k) : Part.reg r ∈ regsBelow k :=
  have hr : BitVec.ofNat 4 r.toNat = r := (BitVec.ofNat_toNat 4 r).trans (BitVec.setWidth_eq r)
  List.mem_map.2 ⟨r.toNat, List.mem_range.2 h, congrArg Part.reg hr⟩

theorem onlyChanges_loadRegs (s : State) {k : Nat} (hk : k ≤ 16) : OnlyChanges (regsBelow k) s (s.loadRegs k) := by
  intro p hp
  cases p
  case reg r =>
    have hr : ¬ r.toNat < k := fun h => hp (mem_regsBelow h)
    exact (s.reg_loadRegs k hk r).trans (if_neg hr)
  all_goals simp [Unchanged]

/-- The last operation of most meanings is `advance`, a write of PC. -/
theorem OnlyChanges.advance {s t : State} {may : List Part} (h : OnlyChanges may s t) :
    OnlyChanges (.pc :: may) s t.advance :=
  h.trans (onlyChanges_setPc t t.npc)

theorem OnlyChanges.setIndex {s t : State} {may : List Part} (h : OnlyChanges may s t) (a : Addr) :
    OnlyChanges (.index :: may) s (t.setIndex a) :=
  h.trans (onlyChanges_setIndex t a)

end Sys2Proof.Safety
end

section
/-! Index register and memory (42_index_memory.md): addresses by offset from `I`, what is read back from a run of bytes
just stored, and the five obligations of the family. -/
namespace Sys2Proof.Machine

open Sys2Proof.Safety

/-! ### Addresses and results -/

theorem toNat_addrPlus (a : Addr) (k : Nat) : (addrPlus a k).toNat = (a.toNat + k) % 4096 :=
  BitVec.toNat_ofNat (a.toNat + k) 12

theorem addrPlus_one (a : Addr) : addrPlus a 1 = a + 1 := addrPlus_eq_add a 1

/-- A register's number as an offset from `I`. -/
theorem addrPlus_toNat_nibble (a : Addr) (r : Nibble) : addrPlus a r.toNat = a + r.setWidth 12 := by
  rw [addrPlus_eq_add, BitVec.ofNat_toNat]

/-- A number that fits the width is narrowed without loss. -/
theorem toNat_ofNat_of_lt {w n : Nat} (h : n < 2 ^ w) : (BitVec.ofNat w n).toNat = n :=
  (BitVec.toNat_ofNat n w).trans (Nat.mod_eq_of_lt h)

/-- No byte has a glyph address past 0xFFF: nothing is lost (42_index_memory.md R162). -/
theorem toNat_glyphAddr (a : Byte) : (glyphAddr a).toNat = 5 * a.toNat :=
  have ha : a.toNat < 256 := a.isLt
  toNat_ofNat_of_lt (by omega)

theorem toNat_indexSum (i : Addr) (a : Byte) : (indexSum i a).toNat = (i.toNat + a.toNat) % 4096 :=
  BitVec.toNat_ofNat (i.toNat + a.toNat) 12

theorem flagByte_indexCarry (i : Addr) (a : Byte) :
    flagByte (indexCarry i a) = if i.toNat + a.toNat > 0xFFF then 1 else 0 := by
  simp only [flagByte, indexCarry, decide_eq_true_eq]

/-! ### Reading back a run of bytes -/

/-- A stored byte is read back at its offset from the base: a run of at most 4096 bytes does not overwrite itself. -/
theorem State.readByte_storeBytes_of_lt (s : State) (a : Addr) (bs : List Byte) (hl : bs.length ≤ 4096) {j : Nat}
    (hj : j < bs.length) : (s.storeBytes a bs).readByte (addrPlus a j) = bs[j] := by
  rw [s.readByte_storeBytes a bs j (Nat.lt_of_lt_of_le hj hl) hl, List.getElem?_eq_getElem hj, Option.getD_some]

/-- The digits of a byte, each at its offset from the base. -/
theorem State.readByte_storeBytes_bcdDigits (s : State) (a : Addr) (b : Byte) :
    ((s.storeBytes a (bcdDigits b)).readByte a).toNat = b.toNat / 100 ∧
    ((s.storeBytes a (bcdDigits b)).readByte (a + 1)).toNat = b.toNat / 10 % 10 ∧
    ((s.storeBytes a (bcdDigits b)).readByte (a + 2)).toNat = b.toNat % 10 := by
  have hb : b.toNat < 256 := b.isLt
  have hread (j : Nat) (hj : j < 3) : (s.storeBytes a (bcdDigits b)).readByte (addrPlus a j) = (bcdDigits b)[j] :=
    s.readByte_storeBytes_of_lt a (bcdDigits b) (by decide : (3 : Nat) ≤ 4096) hj
  have h0 := hread 0 (by decide)
  have h1 := hread 1 (by decide)
  have h2 := hread 2 (by decide)
  rw [addrPlus_zero] at h0
  rw [addrPlus_one] at h1
  rw [addrPlus_two] at h2
  rw [h0, h1, h2]
  exact ⟨toNat_ofNat_of_lt (by omega), toNat_ofNat_of_lt (by omega), toNat_ofNat_of_lt (by omega)⟩

/-- The registers stored from `a` up, read back one by one. -/
theorem State.readByte_storeBytes_regsBelow (s : State) (a : Addr) {k : Nat} (hk : k ≤ 16) {r : Nibble}
    (hr : r.toNat < k) : (s.storeBytes a (s.regsBelow k)).readByte (a + r.setWidth 12) = s.reg r := by
  have hlen : (s.regsBelow k).length = k := s.regsBelow_length k
  rw [← addrPlus_toNat_nibble, s.readByte_storeBytes_of_lt a _ (by omega) (by omega), State.regsBelow_getElem,
    BitVec.ofNat_toNat, BitVec.setWidth_eq]

/-! ### The obligations -/

/-- Settles O37: the three digits are one run of bytes stored from `I`, and `I` itself is not written. -/
theorem bcdStoresThreeDigits : Obligations.BcdStoresThreeDigits := by
  intro x s
  refine ⟨_, exec_ldB x s, (onlyChanges_storeBytes s s.ireg (bcdDigits (s.reg x))).advance, ?_, ?_⟩
  · rw [State.advance_pc, State.storeBytes_npc, State.npc_eq]
  · exact s.readByte_storeBytes_bcdDigits s.ireg (s.reg x)

/-- Settles O38: the registers up to `x` are one run of bytes stored from `I`; `I` moves by the run's length. -/
theorem regDumpStoresTheRun : Obligations.RegDumpStoresTheRun := by
  intro x s
  have hx : x.toNat + 1 ≤ 16 := x.isLt
  have hframe := onlyChanges_storeBytes s s.ireg (s.regsBelow (x.toNat + 1))
  rw [State.regsBelow_length] at hframe
  refine ⟨_, exec_ldMemVx x s, (hframe.setIndex _).advance, ?_, ?_, fun r hr => ?_⟩
  · rw [State.advance_pc, State.setIndex_npc, State.storeBytes_npc, State.npc_eq]
  · rw [State.advance_ireg, State.setIndex_ireg, toNat_addrPlus, Nat.add_assoc]
  · rw [State.advance_readByte, State.setIndex_readByte,
      s.readByte_storeBytes_regsBelow s.ireg hx (Nat.lt_succ_of_le hr)]

/-- Settles O39: `loadRegs` loads the registers below `x + 1` and keeps the others; `I` moves by their number. -/
theorem regLoadLoadsTheRun : Obligations.RegLoadLoadsTheRun := by
  intro x s
  have hx : x.toNat + 1 ≤ 16 := x.isLt
  refine ⟨_, exec_ldVxMem x s, ((onlyChanges_loadRegs s hx).setIndex _).advance, ?_, ?_, fun r hr => ?_,
    fun r hr => ?_⟩
  · rw [State.advance_pc, State.setIndex_npc, State.loadRegs_npc, State.npc_eq]
  · rw [State.advance_ireg, State.setIndex_ireg, toNat_addrPlus, Nat.add_assoc]
  · rw [State.advance_reg, State.setIndex_reg, s.reg_loadRegs _ hx, if_pos (Nat.lt_succ_of_le hr),
      addrPlus_toNat_nibble]
  · rw [State.advance_reg, State.setIndex_reg, s.reg_loadRegs _ hx, if_neg (by omega)]

/-- Settles O35: both are one write of `I`; five times a byte fits twelve bits. -/
theorem loadIndexAndFontAddress : Obligations.LoadIndexAndFontAddress := by
  intro nnn x s
  refine ⟨⟨_, exec_ldI nnn s, (onlyChanges_setIndex s nnn).advance, ?_, ?_⟩,
    ⟨_, exec_ldF x s, (onlyChanges_setIndex s _).advance, ?_, ?_⟩⟩
  · rw [State.advance_pc, State.setIndex_npc, State.npc_eq]
  · rw [State.advance_ireg, State.setIndex_ireg]
  · rw [State.advance_pc, State.setIndex_npc, State.npc_eq]
  · rw [State.advance_ireg, State.setIndex_ireg, toNat_glyphAddr]

/-- Settles O36: the sum and the carry are both taken from the state before VF is written. -/
theorem addIndexSetsCarry : Obligations.AddIndexSetsCarry := by
  intro x s
  refine ⟨_, exec_addI x s, ((onlyChanges_setFlag s _).setIndex _).advance, ?_, ?_, ?_⟩
  · rw [State.advance_pc, State.setIndex_npc, State.setFlag_npc, State.npc_eq]
  · rw [State.advance_ireg, State.setIndex_ireg, toNat_indexSum]
  · rw [State.advance_reg, State.setIndex_reg, State.reg_setFlag, if_pos rfl, flagByte_indexCarry]

end Sys2Proof.Machine
end

section
/-! The display buffer (43_display.md R180): the frame of replacing it, and Clear. -/
namespace Sys2Proof.Machine

open Sys2Proof.Safety

/-- The frame of every replacement of the display buffer, which raises the flag with it (10_state.md R34). -/
theorem onlyChanges_setDisplay (s : State) (d : Display) :
    OnlyChanges [.display, .displayChanged] s (s.setDisplay d) := by
  intro p hp
  cases p
  case display => exact absurd (List.mem_cons_self ..) hp
  case displayChanged => exact absurd (List.mem_cons_of_mem _ (List.mem_singleton_self _)) hp
  all_goals rfl

/-- Settles O41: Clear is one replacement of the buffer by the blank one, and the flag is raised without a look at what
the buffer held. -/
theorem clearBlanksTheDisplay : Obligations.ClearBlanksTheDisplay := by
  intro u s
  refine ⟨_, exec_cls u s, (onlyChanges_setDisplay s Display.blank).advance, ?_, ?_, fun px py _ _ => ?_⟩
  · rw [State.advance_pc, State.setDisplay_npc, State.npc_eq]
  · rw [State.advance_displayChanged, State.setDisplay_displayChanged]
  · rw [State.advance_pixel, State.pixel_setDisplay, Display.pixel_blank]

end Sys2Proof.Machine
end

section
/-! The delay timer as a register (44_keys_timers.md R193, R194): the frame of a write of DT, and the two moves. -/
namespace Sys2Proof.Machine

open Sys2Proof.Safety

/-- The frame of every write of DT. -/
theorem onlyChanges_setDt (s : State) (b : Byte) : OnlyChanges [.dt] s (s.setDt b) := by
  intro p hp
  cases p
  case dt => exact absurd (List.mem_singleton_self Part.dt) hp
  all_goals rfl

/-- Settles O48: the read is one write of register `x`; the write replaces DT without a look at the running count. -/
theorem delayTimerInstructionsMoveAByte : Obligations.DelayTimerInstructionsMoveAByte := by
  intro x s
  refine ⟨⟨_, exec_ldVxDt x s, onlyChanges_setReg_advance s x _, s.pc_setReg_advance x _,
      s.reg_setReg_advance_self x _⟩,
    ⟨_, exec_ldDtVx x s, (onlyChanges_setDt s _).advance, ?_, ?_⟩⟩
  · rw [State.advance_pc, State.setDt_npc, State.npc_eq]
  · rw [State.advance_dt, State.setDt_dt]

end Sys2Proof.Machine
end

section
/-! Decoding and encoding (30_encoding.md sections 3 and 4). The two functions are inverse to each other on the
instructions present, and a word selects a row of the opcode map exactly when it is the word of an instruction of that
row; the statements about the map follow from these. -/
namespace Sys2Proof

/-! ### The decoder finds the instruction that was encoded -/

theorem decodeWith_encode (p : Params) (i : Instr) (h : i.presentIn p = true) :
    decodeWith p (encode i) = .ok i := by
  cases i
  case cls | ret => simp [encode, decodeWith, decodeFamily0]
  case ldReg | orReg | andReg | xorReg | addReg | subReg | shr | subnReg | shl =>
    simp [encode, decodeWith, decodeFamily8]
  case skp x =>
    have hp : p.hasSkp = true := h
    simp [encode, decodeWith, decodeFamilyE, hp]
  case sknp => simp [encode, decodeWith, decodeFamilyE]
  case sneReg x y u =>
    have hp : p.hasSneReg = true := h
    simp [encode, decodeWith, hp]
  case jpV0 nnn =>
    have hp : p.hasJpV0 = true := h
    simp [encode, decodeWith, hp]
  case ldVxDt | ldVxK | ldDtVx | ldStVx | addI | ldF | ldB | ldMemVx | ldVxMem =>
    simp [encode, decodeWith, decodeFamilyF]
  all_goals simp [encode, decodeWith]

/-- Settles O1, constructor by constructor: the fields of the encoded word are the parts it was made of. -/
theorem decodeOfEncodeIsTheInstruction : Obligations.DecodeOfEncodeIsTheInstruction := decodeWith_encode

theorem wordXKK_of_fields {w : Word} {op : Nibble} {kk : Byte} (hop : fieldOp w = op) (hkk : fieldKK w = kk) :
    wordXKK op (fieldX w) kk = w := by
  subst hop hkk
  exact wordXKK_fields w

theorem wordXYN_of_fields {w : Word} {op n : Nibble} (hop : fieldOp w = op) (hn : fieldN w = n) :
    wordXYN op (fieldX w) (fieldY w) n = w := by
  subst hop hn
  exact wordXYN_fields w

theorem wordNNN_of_fields {w : Word} {op : Nibble} (hop : fieldOp w = op) : wordNNN op (fieldNNN w) = w := by
  subst hop
  exact wordNNN_fields w

/-! ### An instruction that was decoded encodes to its word -/

theorem encode_of_decodeFamily0 (p : Params) {w : Word} {i : Instr} (hop : fieldOp w = 0x0)
    (h : decodeFamily0 w = .ok i) : encode i = w ∧ i.presentIn p = true := by
  unfold decodeFamily0 at h
  split at h
  case h_3 => cases h
  all_goals (cases h; exact ⟨wordXKK_of_fields hop ‹_›, rfl⟩)

theorem encode_of_decodeFamily8 (p : Params) {w : Word} {i : Instr} (hop : fieldOp w = 0x8)
    (h : decodeFamily8 w = .ok i) : encode i = w ∧ i.presentIn p = true := by
  unfold decodeFamily8 at h
  split at h
  case h_10 => cases h
  all_goals (cases h; exact ⟨wordXYN_of_fields hop ‹_›, rfl⟩)

theorem encode_of_decodeFamilyE {p : Params} {w : Word} {i : Instr} (hop : fieldOp w = 0xE)
    (h : decodeFamilyE p w = .ok i) : encode i = w ∧ i.presentIn p = true := by
  unfold decodeFamilyE at h
  split at h
  · split at h
    · cases h; exact ⟨wordXKK_of_fields hop ‹_›, ‹_›⟩
    · cases h
  · cases h; exact ⟨wordXKK_of_fields hop ‹_›, rfl⟩
  · cases h

theorem encode_of_decodeFamilyF (p : Params) {w : Word} {i : Instr} (hop : fieldOp w = 0xF)
    (h : decodeFamilyF w = .ok i) : encode i = w ∧ i.presentIn p = true := by
  unfold decodeFamilyF at h
  split at h
  case h_10 => cases h
  all_goals (cases h; exact ⟨wordXKK_of_fields hop ‹_›, rfl⟩)

/-- Each family's instructions hold the fields of the word they were decoded from, so nothing of the word is lost. -/
theorem encode_of_decodeWith {p : Params} {w : Word} {i : Instr} (h : decodeWith p w = .ok i) :
    encode i = w ∧ i.presentIn p = true := by
  unfold decodeWith at h
  split at h
  case h_1 hop => exact encode_of_decodeFamily0 p hop h
  case h_9 hop => exact encode_of_decodeFamily8 p hop h
  case h_10 hop =>
    split at h
    · cases h; exact ⟨wordXYN_of_fields hop rfl, ‹_›⟩
    · cases h
  case h_12 hop =>
    split at h
    · cases h; exact ⟨wordNNN_of_fields hop, ‹_›⟩
    · cases h
  case h_15 hop => exact encode_of_decodeFamilyE hop h
  case h_16 =>
    have hop : fieldOp w = 0xF := by have := nibble_cases (fieldOp w); simp_all
    exact encode_of_decodeFamilyF p hop h
  case h_2 hop | h_3 hop | h_11 hop => cases h; exact ⟨wordNNN_of_fields hop, rfl⟩
  case h_6 hop | h_14 hop => cases h; exact ⟨wordXYN_of_fields hop rfl, rfl⟩
  all_goals (cases h; exact ⟨wordXKK_of_fields ‹_› rfl, rfl⟩)

/-- Settles O2, family by family along the decoder's own branches. -/
theorem encodeOfDecodeIsTheWord : Obligations.EncodeOfDecodeIsTheWord := fun _ _ _ => encode_of_decodeWith

theorem decodeWith_eq_ok_iff (p : Params) (w : Word) (i : Instr) :
    decodeWith p w = .ok i ↔ encode i = w ∧ i.presentIn p = true := by
  refine ⟨encode_of_decodeWith, ?_⟩
  rintro ⟨rfl, h⟩
  exact decodeWith_encode p i h

/-! ### The list of unknown words (30_encoding.md R97) -/

theorem decodeFamily0_eq_error_iff (w : Word) :
    decodeFamily0 w = .error (.unknownInstruction w) ↔ fieldKK w ∉ [0xE0, 0xEE] := by
  unfold decodeFamily0
  split <;> simp_all

theorem decodeFamily8_eq_error_iff (w : Word) : decodeFamily8 w = .error (.unknownInstruction w) ↔
    fieldN w ∈ [0x8, 0x9, 0xA, 0xB, 0xC, 0xD, 0xF] := by
  rcases nibble_cases (fieldN w) with h | h | h | h | h | h | h | h | h | h | h | h | h | h | h | h <;>
    simp [decodeFamily8, h]

theorem decodeFamilyE_eq_error_iff (p : Params) (w : Word) : decodeFamilyE p w = .error (.unknownInstruction w) ↔
    fieldKK w ≠ 0xA1 ∧ (fieldKK w ≠ 0x9E ∨ p.hasSkp = false) := by
  unfold decodeFamilyE
  split <;> simp_all

theorem decodeFamilyF_eq_error_iff (w : Word) : decodeFamilyF w = .error (.unknownInstruction w) ↔
    fieldKK w ∉ [0x07, 0x0A, 0x15, 0x18, 0x1E, 0x29, 0x33, 0x55, 0x65] := by
  unfold decodeFamilyF
  split <;> simp_all

/-- Settles O5, primary nibble by primary nibble. -/
theorem unknownWordsAreTheListed : Obligations.UnknownWordsAreTheListed := by
  intro p w
  rcases nibble_cases (fieldOp w) with hop | hop | hop | hop | hop | hop | hop | hop | hop | hop | hop | hop | hop |
    hop | hop | hop <;>
    simp [decodeWith, hop, decodeFamily0_eq_error_iff, decodeFamily8_eq_error_iff, decodeFamilyE_eq_error_iff,
      decodeFamilyF_eq_error_iff]

/-! ### The opcode map (30_encoding.md R95) -/

/-- Every word that does not decode is refused as itself. -/
theorem decodeWith_error {p : Params} {w : Word} {e : DecodeError} (h : decodeWith p w = .error e) :
    e = .unknownInstruction w := by
  unfold decodeWith decodeFamily0 decodeFamily8 decodeFamilyE decodeFamilyF at h
  repeat' split at h
  all_goals cases h
  all_goals rfl

theorem encode_and_rowMask (i : Instr) : encode i &&& i.rowMask = i.rowMatch := by
  cases i
  case cls u => exact Laws.OpcodeRow.cls u
  case ret u => exact Laws.OpcodeRow.ret u
  case jp nnn => exact Laws.OpcodeRow.jp nnn
  case call nnn => exact Laws.OpcodeRow.call nnn
  case seImm x kk => exact Laws.OpcodeRow.seImm x kk
  case sneImm x kk => exact Laws.OpcodeRow.sneImm x kk
  case seReg x y u => exact Laws.OpcodeRow.seReg x y u
  case ldImm x kk => exact Laws.OpcodeRow.ldImm x kk
  case addImm x kk => exact Laws.OpcodeRow.addImm x kk
  case ldReg x y => exact Laws.OpcodeRow.ldReg x y
  case orReg x y => exact Laws.OpcodeRow.orReg x y
  case andReg x y => exact Laws.OpcodeRow.andReg x y
  case xorReg x y => exact Laws.OpcodeRow.xorReg x y
  case addReg x y => exact Laws.OpcodeRow.addReg x y
  case subReg x y => exact Laws.OpcodeRow.subReg x y
  case shr x y => exact Laws.OpcodeRow.shr x y
  case subnReg x y => exact Laws.OpcodeRow.subnReg x y
  case shl x y => exact Laws.OpcodeRow.shl x y
  case sneReg x y u => exact Laws.OpcodeRow.sneReg x y u
  case ldI nnn => exact Laws.OpcodeRow.ldI nnn
  case jpV0 nnn => exact Laws.OpcodeRow.jpV0 nnn
  case rnd x kk => exact Laws.OpcodeRow.rnd x kk
  case drw x y n => exact Laws.OpcodeRow.drw x y n
  case skp x => exact Laws.OpcodeRow.skp x
  case sknp x => exact Laws.OpcodeRow.sknp x
  case ldVxDt x => exact Laws.OpcodeRow.ldVxDt x
  case ldVxK x => exact Laws.OpcodeRow.ldVxK x
  case ldDtVx x => exact Laws.OpcodeRow.ldDtVx x
  case ldStVx x => exact Laws.OpcodeRow.ldStVx x
  case addI x => exact Laws.OpcodeRow.addI x
  case ldF x => exact Laws.OpcodeRow.ldF x
  case ldB x => exact Laws.OpcodeRow.ldB x
  case ldMemVx x => exact Laws.OpcodeRow.ldMemVx x
  case ldVxMem x => exact Laws.OpcodeRow.ldVxMem x

/-- The instruction of the same row whose operands are the fields of the word (30_encoding.md R91, R95). -/
def Instr.withFieldsOf (w : Word) : Instr → Instr
  | .cls _ => .cls (fieldX w)
  | .ret _ => .ret (fieldX w)
  | .jp _ => .jp (fieldNNN w)
  | .call _ => .call (fieldNNN w)
  | .seImm _ _ => .seImm (fieldX w) (fieldKK w)
  | .sneImm _ _ => .sneImm (fieldX w) (fieldKK w)
  | .seReg _ _ _ => .seReg (fieldX w) (fieldY w) (fieldN w)
  | .ldImm _ _ => .ldImm (fieldX w) (fieldKK w)
  | .addImm _ _ => .addImm (fieldX w) (fieldKK w)
  | .ldReg _ _ => .ldReg (fieldX w) (fieldY w)
  | .orReg _ _ => .orReg (fieldX w) (fieldY w)
  | .andReg _ _ => .andReg (fieldX w) (fieldY w)
  | .xorReg _ _ => .xorReg (fieldX w) (fieldY w)
  | .addReg _ _ => .addReg (fieldX w) (fieldY w)
  | .subReg _ _ => .subReg (fieldX w) (fieldY w)
  | .shr _ _ => .shr (fieldX w) (fieldY w)
  | .subnReg _ _ => .subnReg (fieldX w) (fieldY w)
  | .shl _ _ => .shl (fieldX w) (fieldY w)
  | .sneReg _ _ _ => .sneReg (fieldX w) (fieldY w) (fieldN w)
  | .ldI _ => .ldI (fieldNNN w)
  | .jpV0 _ => .jpV0 (fieldNNN w)
  | .rnd _ _ => .rnd (fieldX w) (fieldKK w)
  | .drw _ _ _ => .drw (fieldX w) (fieldY w) (fieldN w)
  | .skp _ => .skp (fieldX w)
  | .sknp _ => .sknp (fieldX w)
  | .ldVxDt _ => .ldVxDt (fieldX w)
  | .ldVxK _ => .ldVxK (fieldX w)
  | .ldDtVx _ => .ldDtVx (fieldX w)
  | .ldStVx _ => .ldStVx (fieldX w)
  | .addI _ => .addI (fieldX w)
  | .ldF _ => .ldF (fieldX w)
  | .ldB _ => .ldB (fieldX w)
  | .ldMemVx _ => .ldMemVx (fieldX w)
  | .ldVxMem _ => .ldVxMem (fieldX w)

/-! The fields replaced do not decide the row. -/

@[simp] theorem rowMask_withFieldsOf (w : Word) (i : Instr) : (i.withFieldsOf w).rowMask = i.rowMask := by
  cases i <;> rfl

@[simp] theorem rowMatch_withFieldsOf (w : Word) (i : Instr) : (i.withFieldsOf w).rowMatch = i.rowMatch := by
  cases i <;> rfl

@[simp] theorem presentIn_withFieldsOf (p : Params) (w : Word) (i : Instr) :
    (i.withFieldsOf w).presentIn p = i.presentIn p := by
  cases i <;> rfl

/-! A field that the mask keeps whole is the field of the match. -/

theorem fieldOp_of_row {w m r : Word} {op : Nibble} (h : w &&& m = r) (hm : fieldOp m = 0xF) (hr : fieldOp r = op) :
    fieldOp w = op := by
  have h' : fieldOp w &&& fieldOp m = fieldOp r := by rw [← h, fieldOp, fieldOp, fieldOp, BitVec.extractLsb'_and]
  rw [hm, hr] at h'
  exact (BitVec.and_allOnes (x := fieldOp w)).symm.trans h'

theorem fieldN_of_row {w m r : Word} {n : Nibble} (h : w &&& m = r) (hm : fieldN m = 0xF) (hr : fieldN r = n) :
    fieldN w = n := by
  have h' : fieldN w &&& fieldN m = fieldN r := by rw [← h, fieldN, fieldN, fieldN, BitVec.extractLsb'_and]
  rw [hm, hr] at h'
  exact (BitVec.and_allOnes (x := fieldN w)).symm.trans h'

theorem fieldKK_of_row {w m r : Word} {kk : Byte} (h : w &&& m = r) (hm : fieldKK m = 0xFF) (hr : fieldKK r = kk) :
    fieldKK w = kk := by
  have h' : fieldKK w &&& fieldKK m = fieldKK r := by rw [← h, fieldKK, fieldKK, fieldKK, BitVec.extractLsb'_and]
  rw [hm, hr] at h'
  exact (BitVec.and_allOnes (x := fieldKK w)).symm.trans h'

/-- A word that selects a row is the word of that row's instruction with the word's own fields. -/
theorem encode_withFieldsOf {w : Word} {i : Instr} (h : w &&& i.rowMask = i.rowMatch) :
    encode (i.withFieldsOf w) = w := by
  cases i <;> simp only [Instr.rowMask, Instr.rowMatch] at h
  case jp | call | ldI | jpV0 => exact wordNNN_of_fields (fieldOp_of_row h (by decide) (by decide))
  case seImm | sneImm | ldImm | addImm | rnd =>
    exact wordXKK_of_fields (fieldOp_of_row h (by decide) (by decide)) rfl
  case seReg | sneReg | drw => exact wordXYN_of_fields (fieldOp_of_row h (by decide) (by decide)) rfl
  case ldReg | orReg | andReg | xorReg | addReg | subReg | shr | subnReg | shl =>
    exact wordXYN_of_fields (fieldOp_of_row h (by decide) (by decide)) (fieldN_of_row h (by decide) (by decide))
  all_goals
    exact wordXKK_of_fields (fieldOp_of_row h (by decide) (by decide)) (fieldKK_of_row h (by decide) (by decide))

/-- A word that selects a present row decodes to that row's instruction. -/
theorem decodeWith_of_row {p : Params} {w : Word} {i : Instr} (hp : i.presentIn p = true)
    (h : w &&& i.rowMask = i.rowMatch) : decodeWith p w = .ok (i.withFieldsOf w) :=
  (decodeWith_eq_ok_iff p w _).2 ⟨encode_withFieldsOf h, (presentIn_withFieldsOf p w i).trans hp⟩

/-- A word that decodes selects the row of what it decodes to. -/
theorem row_of_decodeWith {p : Params} {w : Word} {i : Instr} (h : decodeWith p w = .ok i) :
    w &&& i.rowMask = i.rowMatch := by
  obtain ⟨rfl, _⟩ := encode_of_decodeWith h
  exact encode_and_rowMask i

/-- Settles O3: a row is selected exactly by the words of its instructions, and every other word is refused. -/
theorem decodeFollowsTheOpcodeMap : Obligations.DecodeFollowsTheOpcodeMap := by
  intro p w
  refine ⟨fun i => row_of_decodeWith, fun j hp hj => ?_, fun hnone => ?_⟩
  · exact ⟨_, decodeWith_of_row hp hj, rowMask_withFieldsOf w j, rowMatch_withFieldsOf w j⟩
  · cases hd : decodeWith p w with
    | ok i =>
      obtain ⟨_, hp⟩ := encode_of_decodeWith hd
      exact absurd (row_of_decodeWith hd) (hnone i hp)
    | error e => rw [decodeWith_error hd]

/-- With every optional instruction present, every row of the map is. -/
theorem presentIn_all (i : Instr) :
    i.presentIn { params with hasSkp := true, hasSneReg := true, hasJpV0 := true } = true := by
  cases i <;> rfl

/-- Settles O4: with every row present the word decodes to an instruction of both. -/
theorem noWordSelectsTwoRows : Obligations.NoWordSelectsTwoRows := by
  intro w i j hi hj
  have hij : i.withFieldsOf w = j.withFieldsOf w := by
    have hd := decodeWith_of_row (presentIn_all i) hi
    rw [decodeWith_of_row (presentIn_all j) hj] at hd
    exact (Except.ok.inj hd).symm
  constructor
  · rw [← rowMask_withFieldsOf w i, hij, rowMask_withFieldsOf]
  · rw [← rowMatch_withFieldsOf w i, hij, rowMatch_withFieldsOf]

/-- Settles O7, by running the decoder on the ten words. -/
theorem handWrittenWordsDecode : Obligations.HandWrittenWordsDecode := by
  unfold Obligations.HandWrittenWordsDecode
  decide

namespace Machine

/-- Settles O6: no meaning reads the unused bits; a Return with an entry in use reports nothing. -/
theorem unusedBitsAreIgnored : Obligations.UnusedBitsAreIgnored := by
  intro x y u s
  have hret (h : s.sp.val ≠ 0) : exec (.ret u) s = exec (.ret 0) s := by
    cases hp : s.pop with
    | none => exact absurd (s.pop_eq_none_iff.1 hp) h
    | some r => rw [exec_ret_some u hp, exec_ret_some 0 hp]
  exact ⟨decodeWith_encode params (.cls u) rfl, rfl, decodeWith_encode params (.ret u) rfl, hret,
    decodeWith_encode params (.seReg x y u) rfl, rfl, decodeWith_encode params (.sneReg x y u) rfl, rfl,
    decodeWith_encode params (.shr x u) rfl, rfl, decodeWith_encode params (.shl x u) rfl, rfl⟩

end Machine

end Sys2Proof
end

section
/-! The frames of the other operations, and what each instruction may write (10_state.md section 14): every meaning is a
few operations one after another, and its frame is theirs put together. -/
namespace Sys2Proof.Safety

open Sys2Proof.Machine

/-! ### Frames put together -/

/-- A frame holds with more parts listed, and with the same parts in another order. -/
theorem OnlyChanges.mono {s t : State} {may may' : List Part} (h : OnlyChanges may s t) (hsub : may ⊆ may') :
    OnlyChanges may' s t := fun p hp => h p (fun hmem => hp (hsub hmem))

/-- A part that reads the same after all need not be listed. -/
theorem OnlyChanges.drop {s t : State} {q : Part} {may : List Part} (h : OnlyChanges (q :: may) s t)
    (hq : Unchanged s t q) : OnlyChanges may s t := by
  intro p hp
  by_cases hpq : p = q
  · rw [hpq]
    exact hq
  · exact h p (fun hmem => (List.mem_cons.1 hmem).elim hpq hp)

theorem OnlyChanges.setReg {s t : State} {may : List Part} (h : OnlyChanges may s t) (x : Nibble) (b : Byte) :
    OnlyChanges (.reg x :: may) s (t.setReg x b) := by
  intro p hp
  rw [List.mem_cons, not_or] at hp
  obtain ⟨hx, hmay⟩ := hp
  refine (h p hmay).trans ?_
  cases p
  case reg r =>
    have hr : r ≠ x := fun e => hx (congrArg Part.reg e)
    exact (t.reg_setReg x r b).trans (if_neg hr)
  all_goals rfl

theorem onlyChanges_refl (s : State) (may : List Part) : OnlyChanges may s s := fun p _ => by cases p <;> rfl

theorem onlyChanges_setReg (s : State) (x : Nibble) (b : Byte) : OnlyChanges [.reg x] s (s.setReg x b) :=
  (onlyChanges_refl s []).setReg x b

/-! ### One frame per operation -/

theorem onlyChanges_setFlagThenReg (s : State) (x : Nibble) (c : Bool) (b : Byte) :
    OnlyChanges [.reg 15, .reg x] s (s.setFlagThenReg x c b) :=
  ((onlyChanges_setFlag s c).setReg x b).mono (by simp)

theorem onlyChanges_setSt (s : State) (b : Byte) : OnlyChanges [.st] s (s.setSt b) := by
  intro p hp
  cases p
  case st => exact absurd (List.mem_singleton_self Part.st) hp
  all_goals rfl

theorem onlyChanges_useRand (s : State) : OnlyChanges [.randCount] s s.useRand := by
  intro p hp
  cases p
  case randCount => exact absurd (List.mem_singleton_self Part.randCount) hp
  all_goals rfl

theorem onlyChanges_setKey (s : State) (k : Nibble) (b : Bool) : OnlyChanges [.key k] s (s.setKey k b) := by
  intro p hp
  cases p
  case key j =>
    have hj : j ≠ k := by simpa using hp
    exact (s.keyOn_setKey k j b).trans (if_neg hj)
  all_goals rfl

/-- A fatal condition taken at the instruction itself leaves PC where it is (60_exceptions.md R216). -/
theorem onlyChanges_raise (s : State) (k : ErrKind) (w : Word) :
    OnlyChanges [.runState, .errKind, .errWord, .errPc] s (s.raise k w s.pc) := by
  intro p hp
  cases p
  case runState | errKind | errWord | errPc => simp at hp
  all_goals rfl

theorem onlyChanges_raise_faultParts (s : State) (k : ErrKind) (w : Word) :
    OnlyChanges faultParts s (s.raise k w s.pc) :=
  (onlyChanges_raise s k w).mono (by simp [faultParts])

theorem onlyChanges_push {s t : State} {a : PcAddr} (h : s.push a = some t) :
    OnlyChanges [.sp, .stackEntry s.sp.val] s t := by
  obtain ⟨hlt, rfl⟩ := State.push_some h
  intro p hp
  cases p
  case sp => simp at hp
  case stackEntry k =>
    have hk : s.sp.val ≠ k := fun e => hp (by simp [e])
    exact Vector.getElem?_set_ne hlt hk
  all_goals rfl

theorem onlyChanges_pop {s t : State} {a : PcAddr} (h : s.pop = some (a, t)) : OnlyChanges [.sp] s t := by
  obtain ⟨_, _, _, rfl⟩ := State.pop_some h
  intro p hp
  cases p
  case sp => simp at hp
  all_goals rfl

/-! ### The access table -/

theorem onlyChanges_execRet {u : Nibble} {s t : State} (h : exec (.ret u) s = .next t) :
    OnlyChanges ([.sp] ++ faultParts) s t := by
  cases hp : s.pop with
  | none =>
    rw [exec_ret_none u hp] at h
    obtain rfl := Host.Outcome.next.inj h
    exact (onlyChanges_raise_faultParts s _ _).mono (List.subset_append_right _ _)
  | some r =>
    obtain ⟨a, t'⟩ := r
    rw [exec_ret_some u hp] at h
    obtain rfl := Host.Outcome.next.inj h
    exact ((onlyChanges_pop hp).trans (onlyChanges_setPc t' a)).mono (by simp [faultParts])

theorem onlyChanges_execCall {nnn : Addr} {s t : State} (h : exec (.call nnn) s = .next t) :
    OnlyChanges ([.sp, .stackEntry s.sp.val] ++ faultParts) s t := by
  cases hp : s.push s.npc with
  | none =>
    rw [exec_call_none nnn hp] at h
    obtain rfl := Host.Outcome.next.inj h
    exact (onlyChanges_raise_faultParts s _ _).mono (List.subset_append_right _ _)
  | some t' =>
    rw [exec_call_some nnn hp] at h
    obtain rfl := Host.Outcome.next.inj h
    exact ((onlyChanges_push hp).trans (onlyChanges_setPc t' _)).mono (by simp [faultParts])

theorem onlyChanges_execLdVxK {x : Nibble} {s t : State} (h : exec (.ldVxK x) s = .next t) :
    OnlyChanges [.pc, .reg x] s t := by
  cases hk : s.leastKey with
  | none =>
    rw [exec_ldVxK_none x hk] at h
    obtain rfl := Host.Outcome.next.inj h
    exact (onlyChanges_setPc s s.pc).mono (by simp)
  | some k =>
    rw [exec_ldVxK_some x hk] at h
    obtain rfl := Host.Outcome.next.inj h
    exact onlyChanges_setReg_advance s x _

/-- Settles O57, one instruction after another: the frames of the operations its meaning is made of, put together. -/
theorem instructionsWriteOnlyWhatTheTableLists : Obligations.InstructionsWriteOnlyWhatTheTableLists := by
  intro i s t h
  cases i
  case ret u => exact onlyChanges_execRet h
  case call nnn => exact onlyChanges_execCall h
  case ldVxK x => exact onlyChanges_execLdVxK h
  all_goals obtain rfl := Host.Outcome.next.inj h
  case cls => exact (onlyChanges_setDisplay s _).advance
  case jp | jpV0 => exact onlyChanges_setPc s _
  case seImm | sneImm | seReg | sneReg | skp | sknp => exact onlyChanges_skipIf s _
  case ldImm | addImm | ldReg | orReg | andReg | xorReg | ldVxDt => exact onlyChanges_setReg_advance s _ _
  case addReg | subReg | subnReg | shr | shl => exact (onlyChanges_setFlagThenReg s _ _ _).advance
  case rnd x kk =>
    exact ((onlyChanges_setReg s x _).trans (onlyChanges_useRand _)).advance.mono (by simp [writes])
  case ldI | ldF => exact (onlyChanges_setIndex s _).advance
  case addI => exact ((onlyChanges_setFlag s _).setIndex _).advance
  case ldB x => exact (onlyChanges_storeBytes s s.ireg (bcdDigits (s.reg x))).advance
  case ldMemVx x =>
    have hframe := onlyChanges_storeBytes s s.ireg (s.regsBelow (x.toNat + 1))
    rw [State.regsBelow_length] at hframe
    exact (hframe.setIndex _).advance
  case ldVxMem x => exact ((onlyChanges_loadRegs s x.isLt).setIndex _).advance
  case drw => exact ((onlyChanges_setDisplay s _).trans (onlyChanges_setFlag _ _)).advance
  case ldDtVx => exact (onlyChanges_setDt s _).advance
  case ldStVx => exact (onlyChanges_setSt s _).advance

end Sys2Proof.Safety
end

section
/-! Fetch and step (60_exceptions.md sections 2 and 4): everything answers a next state, what a cycle does in each run
state, and what the step event does to the fault record. -/
namespace Sys2Proof.Machine

open Sys2Proof.Safety

/-! ### Everything answers a next state -/

theorem exec_answers (i : Instr) (s : State) : ∃ t, exec i s = .next t := by
  cases i
  case ret u =>
    cases hp : s.pop with
    | none => exact ⟨_, exec_ret_none u hp⟩
    | some r => exact ⟨_, exec_ret_some u hp⟩
  case call nnn =>
    cases hp : s.push s.npc with
    | none => exact ⟨_, exec_call_none nnn hp⟩
    | some t => exact ⟨_, exec_call_some nnn hp⟩
  case ldVxK x =>
    cases hk : s.leastKey with
    | none => exact ⟨_, exec_ldVxK_none x hk⟩
    | some k => exact ⟨_, exec_ldVxK_some x hk⟩
  all_goals exact ⟨_, rfl⟩

theorem execWithRand_answers (r : Byte) (i : Instr) (s : State) : ∃ t, execWithRand r i s = .next t := by
  rcases execWithRand_eq r i s with h | ⟨x, kk, _, h⟩
  · rw [h]
    exact exec_answers i s
  · exact ⟨_, h⟩

theorem cycle_answers (p : Params) {run : Instr → State → Result} (hrun : ∀ i s, ∃ t, run i s = .next t)
    (s : State) : ∃ t, cycle p run s = .next t := by
  rcases cycle_cases p run s with ⟨_, h⟩ | ⟨_, i, _, h⟩ | ⟨_, e, _, h⟩
  · exact ⟨s, h⟩
  · rw [h]
    exact hrun i s
  · exact ⟨_, h⟩

theorem applyEvent_answers (e : Event) (s : State) : ∃ t, applyEvent e s = .next t := by
  cases e
  case step r => exact cycle_answers params (execWithRand_answers r) s
  all_goals exact ⟨_, rfl⟩

/-- Settles O12: a fatal condition is a next state, and no meaning ends otherwise. -/
theorem everythingAnswersANextState : Obligations.EverythingAnswersANextState :=
  ⟨exec_answers, cycle_answers params exec_answers, applyEvent_answers⟩

/-! ### The cycle in each run state -/

theorem cycle_halted (p : Params) (run : Instr → State → Result) {s : State} (hr : s.runState = .halted) :
    cycle p run s = .next s := by
  simp only [cycle, hr]

theorem cycle_running_ok {p : Params} (run : Instr → State → Result) {s : State} {i : Instr}
    (hr : s.runState = .running) (hd : decodeWith p (s.fetchWord s.pc) = .ok i) : cycle p run s = run i s := by
  simp only [cycle, hr, hd]

theorem cycle_running_error {p : Params} (run : Instr → State → Result) {s : State} {e : DecodeError}
    (hr : s.runState = .running) (hd : decodeWith p (s.fetchWord s.pc) = .error e) :
    cycle p run s = .next (s.raise .unknownInstruction (s.fetchWord s.pc) s.pc) := by
  simp only [cycle, hr, hd]

/-- Settles O9: it is the running branch of the cycle. -/
theorem stepRunsTheDecodedInstruction : Obligations.StepRunsTheDecodedInstruction :=
  fun _ _ hr hd => cycle_running_ok exec hr hd

/-- Settles O11: the other running branch takes the fatal condition at PC. -/
theorem stepOnUnknownWordHalts : Obligations.StepOnUnknownWordHalts := fun s _ hr hd =>
  ⟨_, cycle_running_error exec hr hd, onlyChanges_raise_faultParts s _ _, rfl, rfl, rfl, rfl, rfl, rfl⟩

/-- The free byte of `exec` is the one its counter picks (log 2). -/
theorem execWithRand_randIn (i : Instr) (s : State) : execWithRand (Config.randIn s.randCount) i s = exec i s := by
  cases i <;> rfl

theorem step_eq_stepEvent (s : State) : step s = stepEvent (Config.randIn s.randCount) s := by
  simp only [step, stepEvent, cycle, execWithRand_randIn]

/-- Settles O13: only Random takes the byte, and `exec` takes the one its counter picks. -/
theorem stepIsTheStepEventWithAFreeByte : Obligations.StepIsTheStepEventWithAFreeByte := step_eq_stepEvent

/-! ### The tick and the load in each run state -/

theorem tick_halted {s : State} (hr : s.runState = .halted) : tick s = s := by
  simp only [tick, hr]

theorem romLoad_halted (rom : List Byte) {s : State} (hr : s.runState = .halted) : romLoad rom s = s := by
  simp only [romLoad, hr]

/-- WHAT A TICK DOES IN RUNNING, in both timers and the flag (60_exceptions.md R221, R222). -/
theorem tick_running {s : State} (hr : s.runState = .running) : tick s =
    { s with dt := BitVec.ofNat 8 (s.dt.toNat - 1), st := BitVec.ofNat 8 (s.st.toNat - 1),
             beepRequested := s.beepRequested || decide (s.st.toNat = 1) } := by
  have htick : tick s = tickSound (tickDelay s) := by simp only [tick, hr]
  rw [htick, tickDelay_eq, tickSound_eq]
  rfl

theorem romLoad_of_fits {rom : List Byte} {s : State} (hr : s.runState = .running) (hlen : rom.length ≤ Config.romMax) :
    romLoad rom s = s.storeBytes Config.progBase rom := by
  simp only [romLoad, hr, if_neg (Nat.not_lt_of_le hlen)]

theorem romLoad_of_too_large {rom : List Byte} {s : State} (hr : s.runState = .running)
    (hlen : Config.romMax < rom.length) : romLoad rom s = s.raise .romTooLarge 0 s.pc := by
  simp only [romLoad, hr, if_pos hlen]

/-- Settles O55: the cycle, the tick and the load each look at the run state first. -/
theorem haltedIgnoresStepTickAndLoad : Obligations.HaltedIgnoresStepTickAndLoad :=
  fun _ rom _ hr => ⟨cycle_halted params exec hr, cycle_halted params _ hr,
    congrArg Host.Outcome.next (tick_halted hr), congrArg Host.Outcome.next (romLoad_halted rom hr)⟩

/-- The word of a Jump as a sum (70_reset_and_hazards.md R255). -/
theorem encode_jp_eq_add (a : Addr) : encode (.jp a) = 0x1000 + a.setWidth 16 := by
  have ha : a.toNat < 2 ^ 12 := a.isLt
  apply BitVec.eq_of_toNat_eq
  calc (encode (.jp a)).toNat
      = 1 <<< 12 ||| a.toNat := BitVec.toNat_append 1#4 a
    _ = 1 <<< 12 + a.toNat := (Nat.shiftLeft_add_eq_or_of_lt ha 1).symm
    _ = (0x1000 + a.setWidth 16).toNat := by simp; omega

/-- Settles O59: the word at PC is that of a Jump to PC, which writes PC as it was. -/
theorem endOfRunIsAFixedPoint : Obligations.EndOfRunIsAFixedPoint := by
  rintro s ⟨hr, hw⟩
  have hd : decode (s.fetchWord s.pc) = .ok (.jp s.pc) := by
    rw [hw, ← encode_jp_eq_add s.pc]
    exact decodeWith_encode params (.jp s.pc) rfl
  rw [step, cycle_running_ok exec hr hd, exec_jp, pcOf_eq]
  rfl

/-! ### What a step does to the fault record -/

/-- The conditions a step can raise, each with its cause in the state the step starts from (60_exceptions.md R215):
an unknown word, a Call word with the stack full, a Return word with it empty. -/
def StepFaultCause (s : State) : ErrKind → Prop
  | .unknownInstruction => decode (s.fetchWord s.pc) = .error (.unknownInstruction (s.fetchWord s.pc))
  | .stackOverflow => fieldOp (s.fetchWord s.pc) = 2 ∧ s.sp.val = params.stackDepth
  | .stackUnderflow => s.fetchWord s.pc &&& 0xF0FF = 0x00EE ∧ s.sp.val = 0
  | .none | .romTooLarge => False

/-- The run state and the three latches read the same. -/
def SameFaultRecord (s t : State) : Prop :=
  t.runState = s.runState ∧ t.errKind = s.errKind ∧ t.errWord = s.errWord ∧ t.errPc = s.errPc

/-- A step event in Running leaves the run state and the record alone, or takes one fatal condition, with the word it
fetched, and does nothing else. -/
theorem stepEvent_running_cases {r : Byte} {s t : State} (hr : s.runState = .running)
    (h : stepEvent r s = .next t) :
    SameFaultRecord s t ∨ ∃ k, StepFaultCause s k ∧ t = s.raise k (s.fetchWord s.pc) s.pc := by
  cases hd : decode (s.fetchWord s.pc) with
  | error e =>
    rw [stepEvent, cycle_running_error _ hr hd] at h
    rw [decodeWith_error hd] at hd
    exact .inr ⟨.unknownInstruction, hd, (Host.Outcome.next.inj h).symm⟩
  | ok i =>
    rw [stepEvent, cycle_running_ok _ hr hd] at h
    obtain ⟨hw, _⟩ := encode_of_decodeWith hd
    rcases execWithRand_eq r i s with he | ⟨x, kk, _, he⟩
    · rw [he] at h
      rcases exec_cases h with hsame | ⟨u, rfl, hsp, rfl⟩ | ⟨nnn, rfl, hsp, rfl⟩
      · exact .inl hsame
      · exact .inr ⟨.stackUnderflow, ⟨by rw [← hw]; exact Laws.OpcodeRow.ret u, hsp⟩, by rw [hw]⟩
      · exact .inr ⟨.stackOverflow, ⟨by rw [← hw]; exact fieldOp_wordNNN 2 nnn, hsp⟩, by rw [hw]⟩
    · rw [he] at h
      obtain rfl := Host.Outcome.next.inj h
      exact .inl ⟨rfl, rfl, rfl, rfl⟩

/-- Settles O14: a Running step that ends Halted has taken one fatal condition and done nothing else. -/
theorem faultsArePrecise : Obligations.FaultsArePrecise := by
  intro s t hr h ht
  rw [step_eq_stepEvent] at h
  rcases stepEvent_running_cases hr h with ⟨hsame, _⟩ | ⟨k, hk, rfl⟩
  · rw [hsame, hr] at ht
    cases ht
  · have hnone : k ≠ .none := by rintro rfl; exact hk
    have hrom : k ≠ .romTooLarge := by rintro rfl; exact hk
    exact ⟨onlyChanges_raise s k _, rfl, hnone, hrom, rfl, rfl⟩

/-! ### An instruction stored at PC (20_memory.md section 9) -/

/-- The two bytes of a word, the high one first, make the word again. -/
theorem tableWordBytes_toNat (w : Word) :
    tableWordBytes 16 w.toNat = [w.extractLsb' 8 8, w.extractLsb' 0 8] := by
  have hw : w.toNat < 2 ^ 16 := w.isLt
  unfold tableWordBytes
  rw [Nat.mod_eq_of_lt hw]
  simp [BitVec.extractLsb', Nat.shiftRight_eq_div_pow]

theorem wordOfBytes_extract (w : Word) : wordOfBytes (w.extractLsb' 8 8) (w.extractLsb' 0 8) = w := by
  apply BitVec.eq_of_toNat_eq
  rw [toNat_wordOfBytes]
  simp [Nat.shiftRight_eq_div_pow]
  omega

/-- Two bytes stored where the fetch reads are the word it reads; the second byte's address wraps as the fetch's does. -/
theorem State.fetchWord_storeBytes_pair (s : State) (a : PcAddr) (hi lo : Byte) :
    (s.storeBytes (memAddr a) [hi, lo]).fetchWord a = wordOfBytes hi lo := by
  have hread (j : Nat) (hj : j < 2) :
      (s.storeBytes (memAddr a) [hi, lo]).readByte (addrPlus (memAddr a) j) = [hi, lo][j] :=
    s.readByte_storeBytes_of_lt (memAddr a) [hi, lo] (by decide : 2 ≤ 4096) hj
  have h0 := hread 0 (by decide)
  have h1 := hread 1 (by decide)
  rw [addrPlus_zero] at h0
  rw [addrPlus_one] at h1
  rw [State.fetchWord_eq_wordOfBytes, h0, h1]
  rfl

theorem State.fetchWord_withFetchWord (s : State) (w : Word) :
    (s.withFetchWord 16 w.toNat).fetchWord (s.withFetchWord 16 w.toNat).pc = w := by
  have hpc : (s.withFetchWord 16 w.toNat).pc = s.pc := s.storeBytes_pc _ _
  have hstore : (s.withFetchWord 16 w.toNat).fetchWord s.pc =
      (s.storeBytes (memAddr s.pc) (tableWordBytes 16 w.toNat)).fetchWord s.pc := rfl
  rw [hpc, hstore, tableWordBytes_toNat, State.fetchWord_storeBytes_pair, wordOfBytes_extract]

/-- Settles O10: the fetch reads back the bytes placed, and the placing sets Running. -/
theorem storedInstructionRunsNext : Obligations.StoredInstructionRunsNext := by
  intro s w i hd
  have hw := s.fetchWord_withFetchWord w
  exact ⟨hw, cycle_running_ok exec rfl (by rw [hw]; exact hd)⟩

end Sys2Proof.Machine
end

section
/-! The invariant (10_state.md sections 9 and 12; 60_exceptions.md sections 4 and 11; log 3): memory stays canonical, and
the fault record goes on to agree with the run state, over every event. -/
namespace Sys2Proof.Safety

open Sys2Proof.Machine

/-! ### The canonical form of memory -/

/-- An instruction leaves memory alone or stores one run of bytes. -/
theorem exec_mem {i : Instr} {s t : State} (h : exec i s = .next t) :
    t.mem = s.mem ∨ ∃ bs, t.mem = (s.storeBytes s.ireg bs).mem := by
  cases i
  case ret u =>
    cases hp : s.pop with
    | none => rw [exec_ret_none u hp] at h; obtain rfl := Host.Outcome.next.inj h; exact .inl rfl
    | some r =>
      rw [exec_ret_some u hp] at h
      obtain ⟨_, _, _, hr⟩ := State.pop_some hp
      obtain rfl := Host.Outcome.next.inj h
      exact .inl (by rw [State.setPc_mem, hr])
  case call nnn =>
    cases hp : s.push s.npc with
    | none => rw [exec_call_none nnn hp] at h; obtain rfl := Host.Outcome.next.inj h; exact .inl rfl
    | some t' =>
      rw [exec_call_some nnn hp] at h
      obtain ⟨_, ht'⟩ := State.push_some hp
      obtain rfl := Host.Outcome.next.inj h
      exact .inl (by rw [State.setPc_mem, ht'])
  case ldVxK x =>
    cases hk : s.leastKey with
    | none => rw [exec_ldVxK_none x hk] at h; obtain rfl := Host.Outcome.next.inj h; exact .inl rfl
    | some k => rw [exec_ldVxK_some x hk] at h; obtain rfl := Host.Outcome.next.inj h; exact .inl rfl
  all_goals obtain rfl := Host.Outcome.next.inj h
  case ldB x => exact .inr ⟨bcdDigits (s.reg x), rfl⟩
  case ldMemVx x => exact .inr ⟨s.regsBelow (x.toNat + 1), rfl⟩
  case ldVxMem x => exact .inl (s.loadRegs_mem _)
  case seImm | sneImm | seReg | sneReg | skp | sknp => exact .inl (s.skipIf_mem _)
  all_goals exact .inl rfl

theorem execWithRand_keeps_wf {r : Byte} {i : Instr} {s t : State} (hm : Memory.wf s.mem = true)
    (h : execWithRand r i s = .next t) : Memory.wf t.mem = true := by
  rcases execWithRand_eq r i s with he | ⟨x, kk, _, he⟩
  · rw [he] at h
    rcases exec_mem h with hmem | ⟨bs, hmem⟩ <;> rw [hmem]
    · exact hm
    · exact s.wf_storeBytes s.ireg bs hm
  · rw [he] at h
    obtain rfl := Host.Outcome.next.inj h
    exact hm

theorem stepEvent_keeps_wf {r : Byte} {s t : State} (hm : Memory.wf s.mem = true) (h : stepEvent r s = .next t) :
    Memory.wf t.mem = true := by
  rcases cycle_cases params (execWithRand r) s with ⟨_, hc⟩ | ⟨_, i, _, hc⟩ | ⟨_, e, _, hc⟩ <;>
    rw [stepEvent, hc] at h
  · obtain rfl := Host.Outcome.next.inj h
    exact hm
  · exact execWithRand_keeps_wf hm h
  · obtain rfl := Host.Outcome.next.inj h
    exact hm

/-! ### The fault record -/

/-- In Running the record says that there is no fault. -/
theorem faultRecordOk_running_iff {s : State} (hr : s.runState = .running) :
    FaultRecordOk s ↔ s.errKind = .none ∧ s.errWord = 0 ∧ s.errPc = 0 := by
  unfold FaultRecordOk
  rw [hr]
  cases s.errKind <;> simp

theorem faultRecordOk_of_same {s t : State} (h : SameFaultRecord s t) (hr : s.runState = .running)
    (hs : FaultRecordOk s) : FaultRecordOk t := by
  obtain ⟨hrun, hkind, hword, hpc⟩ := h
  rw [faultRecordOk_running_iff (hrun.trans hr), hkind, hword, hpc]
  exact (faultRecordOk_running_iff hr).1 hs

/-- The record of a fatal condition names its cause, whichever it is. -/
theorem faultRecordOk_raise {s : State} {k : ErrKind} (hk : StepFaultCause s k) :
    FaultRecordOk (s.raise k (s.fetchWord s.pc) s.pc) := by
  cases k with
  | none | romTooLarge => exact hk.elim
  | unknownInstruction | stackOverflow | stackUnderflow => exact ⟨rfl, rfl, hk⟩

/-- What the invariant reads: an update of anything else keeps it. -/
theorem Inv.congr {s t : State} (h : Inv s) (hrec : SameFaultRecord s t) (hpc : t.pc = s.pc) (hsp : t.sp = s.sp)
    (hmem : t.mem = s.mem) : Inv t := by
  obtain ⟨hrun, hkind, hword, herr⟩ := hrec
  have hfetch (a : PcAddr) : t.fetchWord a = s.fetchWord a := by simp only [State.fetchWord, State.readByte, hmem]
  unfold Inv FaultRecordOk
  rw [hrun, hkind, hword, herr, hpc, hsp, hmem, hfetch]
  exact h

/-! ### Every event keeps the invariant -/

theorem stepEvent_keeps_inv {r : Byte} {s t : State} (hs : Inv s) (h : stepEvent r s = .next t) : Inv t := by
  obtain ⟨hm, hrec⟩ := hs
  refine ⟨stepEvent_keeps_wf hm h, ?_⟩
  cases hr : s.runState with
  | halted =>
    rw [stepEvent, cycle_halted params _ hr] at h
    obtain rfl := Host.Outcome.next.inj h
    exact hrec
  | running =>
    rcases stepEvent_running_cases hr h with hsame | ⟨k, hk, rfl⟩
    · exact faultRecordOk_of_same hsame hr hrec
    · exact faultRecordOk_raise hk

/-- Settles O16: the step is the step event with some byte. -/
theorem stepKeepsTheInvariant : Obligations.StepKeepsTheInvariant := by
  intro s t hs h
  rw [step_eq_stepEvent] at h
  exact stepEvent_keeps_inv hs h

/-- Settles O15: memory lists nothing, and no fault is recorded. -/
theorem resetMeetsTheInvariant : Obligations.ResetMeetsTheInvariant := ⟨by decide, rfl, rfl⟩

theorem romLoad_keeps_inv (rom : List Byte) {s : State} (hs : Inv s) : Inv (romLoad rom s) := by
  cases hr : s.runState with
  | halted =>
    rw [romLoad_halted rom hr]
    exact hs
  | running =>
    obtain ⟨hm, hrec⟩ := hs
    rcases Nat.lt_or_ge Config.romMax rom.length with hlen | hlen
    · rw [romLoad_of_too_large hr hlen]
      exact ⟨hm, rfl, rfl⟩
    · rw [romLoad_of_fits hr hlen]
      have hsame : SameFaultRecord s (s.storeBytes Config.progBase rom) := by simp [SameFaultRecord]
      exact ⟨s.wf_storeBytes _ _ hm, faultRecordOk_of_same hsame hr hrec⟩

theorem tick_keeps_inv {s : State} (hs : Inv s) : Inv (tick s) := by
  cases hr : s.runState with
  | halted =>
    rw [tick_halted hr]
    exact hs
  | running =>
    rw [tick_running hr]
    exact hs.congr ⟨rfl, rfl, rfl, rfl⟩ rfl rfl rfl

theorem applyEvent_keeps_inv {e : Event} {s t : State} (hs : Inv s) (h : applyEvent e s = .next t) : Inv t := by
  cases e with
  | step r => exact stepEvent_keeps_inv hs h
  | reset => obtain rfl := Host.Outcome.next.inj h; exact resetMeetsTheInvariant.congr ⟨rfl, rfl, rfl, rfl⟩ rfl rfl rfl
  | romLoad rom => obtain rfl := Host.Outcome.next.inj h; exact romLoad_keeps_inv rom hs
  | tick => obtain rfl := Host.Outcome.next.inj h; exact tick_keeps_inv hs
  | keyDown | keyUp | ackDisplay | ackBeep =>
    obtain rfl := Host.Outcome.next.inj h
    exact hs.congr ⟨rfl, rfl, rfl, rfl⟩ rfl rfl rfl

/-- A property that every event of a sequence keeps holds after the sequence. -/
theorem applyEvents_induction {P : State → Prop} {es : List Event}
    (hstep : ∀ e ∈ es, ∀ s t, P s → applyEvent e s = .next t → P t) {s t : State} (hs : P s)
    (h : applyEvents es s = .next t) : P t := by
  induction es generalizing s with
  | nil => obtain rfl := Host.Outcome.next.inj h; exact hs
  | cons e es ih =>
    obtain ⟨u, hu⟩ := applyEvent_answers e s
    have htail : applyEvents es u = .next t := by rw [applyEvents, hu] at h; exact h
    exact ih (fun e' he' => hstep e' (List.mem_cons_of_mem _ he')) (hstep e (List.mem_cons_self ..) s u hs hu) htail

/-- Settles O17: each event keeps the invariant, so a sequence does. -/
theorem eventsKeepTheInvariant : Obligations.EventsKeepTheInvariant :=
  fun _ _ _ => applyEvents_induction (fun _ _ _ _ => applyEvent_keeps_inv)

/-! ### Halted -/

/-- Halted, with the fault record, PC and memory of `s`. -/
def HaltedAs (s t : State) : Prop :=
  t.runState = .halted ∧ t.errKind = s.errKind ∧ t.errWord = s.errWord ∧ t.errPc = s.errPc ∧ t.pc = s.pc ∧ t.mem = s.mem

theorem applyEvent_keeps_haltedAs {e : Event} (he : e ≠ .reset) {s t u : State} (ht : HaltedAs s t)
    (h : applyEvent e t = .next u) : HaltedAs s u := by
  obtain ⟨hr, _⟩ := id ht
  cases e with
  | reset => exact absurd rfl he
  | step r => rw [applyEvent, stepEvent, cycle_halted params _ hr] at h; obtain rfl := Host.Outcome.next.inj h; exact ht
  | tick => rw [applyEvent, tick_halted hr] at h; obtain rfl := Host.Outcome.next.inj h; exact ht
  | romLoad rom => rw [applyEvent, romLoad_halted rom hr] at h; obtain rfl := Host.Outcome.next.inj h; exact ht
  | keyDown | keyUp | ackDisplay | ackBeep => obtain rfl := Host.Outcome.next.inj h; exact ht

/-- Settles O56: each event but reset leaves a Halted machine so, and a sequence does. -/
theorem onlyResetLeavesHalted : Obligations.OnlyResetLeavesHalted := by
  intro es s t hr hreset h
  have hs : HaltedAs s s := ⟨hr, rfl, rfl, rfl, rfl, rfl⟩
  exact applyEvents_induction (P := HaltedAs s)
    (fun e he _ _ => applyEvent_keeps_haltedAs (by rintro rfl; exact hreset he)) hs h

end Sys2Proof.Safety
end

section
/-! What no program can read (10_state.md sections 6, 7, 9, 10; log 2): a state that differs from `s` only there is `s`
with those parts replaced, and every operation but the few that write such a part commutes with the replacement. -/
namespace Sys2Proof.Safety

open Sys2Proof.Machine

/-- Values for the parts that `SameToPrograms` leaves free: the whole stack among them, since an entry in use is held to
the state's own by `Hidden.Fits`. -/
structure Hidden where
  stack : Vector PcAddr params.stackDepth
  st : Byte
  displayChanged : Bool
  beepRequested : Bool
  errKind : ErrKind
  errWord : Word
  errPc : PcAddr
  randCount : Nat

/-- The hidden parts of a state. -/
def hiddenOf (t : State) : Hidden where
  stack := t.stack
  st := t.st
  displayChanged := t.displayChanged
  beepRequested := t.beepRequested
  errKind := t.errKind
  errWord := t.errWord
  errPc := t.errPc
  randCount := t.randCount

/-- The state with its hidden parts replaced. -/
def withHidden (s : State) (h : Hidden) : State :=
  { s with stack := h.stack, st := h.st, displayChanged := h.displayChanged, beepRequested := h.beepRequested,
           errKind := h.errKind, errWord := h.errWord, errPc := h.errPc, randCount := h.randCount }

/-- The replacement keeps the stack entries in use. -/
def Hidden.Fits (h : Hidden) (s : State) : Prop := ∀ k, k < s.sp.val → h.stack[k]? = s.stack[k]?

theorem sameToPrograms_withHidden {s : State} {h : Hidden} (hfit : h.Fits s) : SameToPrograms s (withHidden s h) :=
  ⟨rfl, hfit⟩

theorem eq_withHidden_of_sameToPrograms {s t : State} (h : SameToPrograms s t) : t = withHidden s (hiddenOf t) := by
  obtain ⟨hmask, _⟩ := h
  have hkept : withHidden (maskUnreadable t) (hiddenOf t) =
      withHidden (maskUnreadable { s with stack := t.stack }) (hiddenOf t) := by rw [hmask]
  exact hkept

theorem getElem_eq_of_getElem?_eq {α : Type} {n i : Nat} {xs ys : Vector α n} (hi : i < n)
    (h : xs[i]? = ys[i]?) : xs[i] = ys[i] := by
  rwa [Vector.getElem?_eq_getElem hi, Vector.getElem?_eq_getElem hi, Option.some.injEq] at h

/-! ### Operations that go through many writes -/

theorem storeBytes_withHidden (s : State) (h : Hidden) (a : Addr) (bs : List Byte) :
    (withHidden s h).storeBytes a bs = withHidden (s.storeBytes a bs) h := by
  induction bs generalizing s a with
  | nil => rfl
  | cons b bs ih => exact ih (s.writeByte a b) (addrPlus a 1)

theorem loadRegs_withHidden (s : State) (h : Hidden) (k : Nat) :
    (withHidden s h).loadRegs k = withHidden (s.loadRegs k) h := by
  induction k with
  | zero => rfl
  | succ k ih => rw [State.loadRegs, ih]; rfl

theorem skipIf_withHidden (s : State) (h : Hidden) (c : Bool) :
    (withHidden s h).skipIf c = withHidden (s.skipIf c) h := by
  cases c <;> rfl

/-! ### Two runs side by side -/

/-- Both answer next states, equal but for hidden parts; and the counters of consumed bytes, which were `c` and `d`, have
moved by the same number. -/
def AgreeFrom (c d : Nat) (r r' : Result) : Prop :=
  ∃ s h, r = .next s ∧ r' = .next (withHidden s h) ∧ h.Fits s ∧ h.randCount + c = s.randCount + d

section
variable {s : State} {h : Hidden} (hfit : h.Fits s)
include hfit

/-- A fatal condition overwrites the latches. -/
theorem agreeFrom_raise (k : ErrKind) (w : Word) (a : PcAddr) : AgreeFrom s.randCount h.randCount
    (.next (s.raise k w a)) (.next ((withHidden s h).raise k w a)) :=
  ⟨_, { h with errKind := k, errWord := w, errPc := a }, rfl, rfl, hfit, Nat.add_comm _ _⟩

/-- An operation that commutes with the replacement and keeps SP, the stack and the counter. -/
theorem agreeFrom_of_commutes {t u : State} (hu : u = withHidden t h) (hsp : t.sp = s.sp) (hstack : t.stack = s.stack)
    (hcount : t.randCount = s.randCount) : AgreeFrom s.randCount h.randCount (.next t) (.next u) :=
  ⟨t, h, rfl, congrArg _ hu, by unfold Hidden.Fits; rw [hsp, hstack]; exact hfit, by rw [hcount, Nat.add_comm]⟩

theorem pop_withHidden {t : State} {a : PcAddr} (hp : s.pop = some (a, t)) :
    (withHidden s h).pop = some (a, withHidden t h) := by
  obtain ⟨hlt, hpos, rfl, rfl⟩ := State.pop_some hp
  have htop : h.stack[s.sp.val - 1] = s.stack[s.sp.val - 1] :=
    getElem_eq_of_getElem?_eq hlt (hfit (s.sp.val - 1) (by omega))
  rw [← htop]
  exact dif_pos hpos

/-- The entry taken is one in use. -/
theorem agreeFrom_execRet (u : Nibble) :
    AgreeFrom s.randCount h.randCount (exec (.ret u) s) (exec (.ret u) (withHidden s h)) := by
  cases hp : s.pop with
  | none =>
    have hp' : (withHidden s h).pop = none := (State.pop_eq_none_iff _).2 (s.pop_eq_none_iff.1 hp)
    rw [exec_ret_none u hp, exec_ret_none u hp']
    exact agreeFrom_raise hfit _ _ _
  | some r =>
    obtain ⟨a, t⟩ := r
    rw [exec_ret_some u hp, exec_ret_some u (pop_withHidden hfit hp)]
    obtain ⟨_, _, _, rfl⟩ := State.pop_some hp
    have hfit' (k : Nat) (hk : k < s.sp.val - 1) : h.stack[k]? = s.stack[k]? := hfit k (by omega)
    exact ⟨_, h, rfl, rfl, hfit', Nat.add_comm _ _⟩

/-- The entry written is the same in both, and comes to be in use. -/
theorem agreeFrom_execCall (nnn : Addr) :
    AgreeFrom s.randCount h.randCount (exec (.call nnn) s) (exec (.call nnn) (withHidden s h)) := by
  cases hp : s.push s.npc with
  | none =>
    have hp' : (withHidden s h).push s.npc = none := (State.push_eq_none_iff _ _).2 ((s.push_eq_none_iff _).1 hp)
    rw [exec_call_none nnn hp, exec_call_none nnn hp']
    exact agreeFrom_raise hfit _ _ _
  | some t =>
    obtain ⟨hlt, rfl⟩ := State.push_some hp
    have hp' : (withHidden s h).push s.npc = some _ := dif_pos hlt
    rw [exec_call_some nnn hp, exec_call_some nnn hp']
    refine ⟨_, { h with stack := h.stack.set s.sp.val s.npc hlt }, rfl, rfl, ?_, Nat.add_comm _ _⟩
    intro k hk
    have hk' : k < s.sp.val + 1 := hk
    show (h.stack.set s.sp.val s.npc hlt)[k]? = (s.stack.set s.sp.val s.npc hlt)[k]?
    by_cases he : s.sp.val = k
    · subst he
      rw [Vector.getElem?_set_self hlt, Vector.getElem?_set_self hlt]
    · rw [Vector.getElem?_set_ne hlt he, Vector.getElem?_set_ne hlt he]
      exact hfit k (by omega)

theorem agreeFrom_execLdVxK (x : Nibble) :
    AgreeFrom s.randCount h.randCount (exec (.ldVxK x) s) (exec (.ldVxK x) (withHidden s h)) := by
  have hkey : (withHidden s h).leastKey = s.leastKey := rfl
  cases hk : s.leastKey with
  | none =>
    rw [exec_ldVxK_none x hk, exec_ldVxK_none x (hkey.trans hk)]
    exact agreeFrom_of_commutes hfit rfl rfl rfl rfl
  | some k =>
    rw [exec_ldVxK_some x hk, exec_ldVxK_some x (hkey.trans hk)]
    exact agreeFrom_of_commutes hfit rfl rfl rfl rfl

theorem agreeFrom_execWithRand (r : Byte) (i : Instr) :
    AgreeFrom s.randCount h.randCount (execWithRand r i s) (execWithRand r i (withHidden s h)) := by
  cases i
  case ret u => exact agreeFrom_execRet hfit u
  case call nnn => exact agreeFrom_execCall hfit nnn
  case ldVxK x => exact agreeFrom_execLdVxK hfit x
  case cls | drw => exact ⟨_, { h with displayChanged := true }, rfl, rfl, hfit, Nat.add_comm _ _⟩
  case ldStVx x => exact ⟨_, { h with st := s.reg x }, rfl, rfl, hfit, Nat.add_comm _ _⟩
  case rnd =>
    have hcount : h.randCount + 1 + s.randCount = s.randCount + 1 + h.randCount := by omega
    exact ⟨_, { h with randCount := h.randCount + 1 }, rfl, rfl, hfit, hcount⟩
  case seImm | sneImm | seReg | sneReg | skp | sknp =>
    exact agreeFrom_of_commutes hfit (skipIf_withHidden s h _) (s.skipIf_sp _)
      (s.skipIf_stack _) (s.skipIf_randCount _)
  case ldB x =>
    have hstore := storeBytes_withHidden s h s.ireg (bcdDigits (s.reg x))
    exact agreeFrom_of_commutes hfit (congrArg State.advance hstore) (s.storeBytes_sp _ _)
      (s.storeBytes_stack _ _) (s.storeBytes_randCount _ _)
  case ldMemVx x =>
    have hstore := storeBytes_withHidden s h s.ireg (s.regsBelow (x.toNat + 1))
    exact agreeFrom_of_commutes hfit
      (congrArg (fun t : State => (t.setIndex (addrPlus s.ireg (x.toNat + 1))).advance) hstore) (s.storeBytes_sp _ _)
      (s.storeBytes_stack _ _) (s.storeBytes_randCount _ _)
  case ldVxMem x =>
    have hload := loadRegs_withHidden s h (x.toNat + 1)
    exact agreeFrom_of_commutes hfit
      (congrArg (fun t : State => (t.setIndex (addrPlus s.ireg (x.toNat + 1))).advance) hload) (s.loadRegs_sp _)
      (s.loadRegs_stack _) (s.loadRegs_randCount _)
  all_goals exact agreeFrom_of_commutes hfit rfl rfl rfl rfl

theorem agreeFrom_stepEvent (r : Byte) :
    AgreeFrom s.randCount h.randCount (stepEvent r s) (stepEvent r (withHidden s h)) := by
  have hfetch : (withHidden s h).fetchWord (withHidden s h).pc = s.fetchWord s.pc := rfl
  cases hr : s.runState with
  | halted =>
    have hr' : (withHidden s h).runState = .halted := hr
    rw [stepEvent, stepEvent, cycle_halted params _ hr, cycle_halted params _ hr']
    exact agreeFrom_of_commutes hfit rfl rfl rfl rfl
  | running =>
    have hr' : (withHidden s h).runState = .running := hr
    cases hd : decodeWith params (s.fetchWord s.pc) with
    | ok i =>
      rw [stepEvent, stepEvent, cycle_running_ok _ hr hd, cycle_running_ok _ hr' (hfetch ▸ hd)]
      exact agreeFrom_execWithRand hfit r i
    | error e =>
      rw [stepEvent, stepEvent, cycle_running_error _ hr hd, cycle_running_error _ hr' (hfetch ▸ hd)]
      exact agreeFrom_raise hfit _ _ _

end

/-- Settles O58: the second state is the first with its hidden parts replaced, and two step events with one byte agree;
the host's step takes the byte its counter picks. -/
theorem unreadableStateIsNeverRead : Obligations.UnreadableStateIsNeverRead := by
  intro r s t hst
  obtain ⟨_, hstack⟩ := id hst
  have hfit : (hiddenOf t).Fits s := hstack
  have hagree (r : Byte) : AgreeFrom s.randCount t.randCount (stepEvent r s) (stepEvent r t) := by
    have := agreeFrom_stepEvent hfit r
    rwa [← eq_withHidden_of_sameToPrograms hst] at this
  refine ⟨?_, fun hcount => ?_⟩
  · obtain ⟨s', h', hs, ht, hfit', _⟩ := hagree r
    exact ⟨s', _, hs, ht, sameToPrograms_withHidden hfit'⟩
  · obtain ⟨s', h', hs, ht, hfit', hcount'⟩ := hagree (Config.randIn s.randCount)
    rw [step_eq_stepEvent, step_eq_stepEvent t, hcount]
    have hcount'' : h'.randCount = s'.randCount := by omega
    exact ⟨s', _, hs, ht, sameToPrograms_withHidden hfit', hcount''⟩

end Sys2Proof.Safety
end

section
/-! Control transfer by the stack and by V0 (40_flow.md R120, R122, R123, R127; 10_state.md R25). -/
namespace Sys2Proof.Machine

open Sys2Proof.Safety

theorem State.exists_push {s : State} (h : s.sp.val < params.stackDepth) (a : PcAddr) : ∃ t, s.push a = some t := by
  cases hp : s.push a with
  | none => exact absurd ((s.push_eq_none_iff a).1 hp) (Nat.ne_of_lt h)
  | some t => exact ⟨t, rfl⟩

theorem State.exists_pop {s : State} (h : 0 < s.sp.val) : ∃ a t, s.pop = some (a, t) := by
  cases hp : s.pop with
  | none => exact absurd (s.pop_eq_none_iff.1 hp) (Nat.ne_of_gt h)
  | some r => exact ⟨r.1, r.2, rfl⟩

/-- Settles O20: a pop and a write of PC. -/
theorem returnPopsIntoPc : Obligations.ReturnPopsIntoPc := by
  intro u s hpos
  obtain ⟨a, t, hp⟩ := s.exists_pop hpos
  have hframe := (onlyChanges_pop hp).trans (onlyChanges_setPc t a)
  obtain ⟨hlt, _, rfl, rfl⟩ := State.pop_some hp
  exact ⟨_, exec_ret_some u hp, hframe, rfl, (Vector.getElem?_eq_getElem hlt).symm⟩

/-- Settles O21: with no entry to pop the fatal condition is taken at PC. -/
theorem returnOnEmptyStackHalts : Obligations.ReturnOnEmptyStackHalts :=
  fun u s h => ⟨_, exec_ret_none u (s.pop_eq_none_iff.2 h), onlyChanges_raise s _ _, rfl, rfl, rfl, rfl⟩

/-- Settles O23: a push of the next address and a write of PC. -/
theorem callPushesTheReturnAddress : Obligations.CallPushesTheReturnAddress := by
  intro nnn s hsp
  obtain ⟨t, hp⟩ := State.exists_push hsp s.npc
  have hframe := (onlyChanges_push hp).trans (onlyChanges_setPc t (pcOf nnn))
  obtain ⟨hlt, rfl⟩ := State.push_some hp
  refine ⟨_, exec_call_some nnn hp, hframe, ?_, rfl, ?_⟩
  · rw [State.setPc_pc, pcOf_eq]
  · rw [← s.npc_eq]
    exact Vector.getElem?_set_self hlt

/-- Settles O24: with no entry free the fatal condition is taken at PC. -/
theorem callOnFullStackHalts : Obligations.CallOnFullStackHalts :=
  fun nnn s h => ⟨_, exec_call_none nnn ((s.push_eq_none_iff _).2 h), onlyChanges_raise s _ _, rfl, rfl, rfl, rfl⟩

theorem State.pop_setPc (s : State) (a : PcAddr) :
    (s.setPc a).pop = s.pop.map (fun r => (r.1, r.2.setPc a)) := by
  unfold State.pop
  by_cases h : 0 < s.sp.val
  · rw [dif_pos h]
    exact dif_pos h
  · rw [dif_neg h]
    exact dif_neg h

/-- Settles O25: the pop gives back the address just pushed and the SP from before; the push's entry and the two writes
of PC are what is left. -/
theorem callThenReturnComesBack : Obligations.CallThenReturnComesBack := by
  intro nnn u s hsp
  obtain ⟨t, hp⟩ := State.exists_push hsp s.npc
  have hpop : (t.setPc (pcOf nnn)).pop = some (s.npc, State.setPc { t with sp := s.sp } (pcOf nnn)) := by
    rw [State.pop_setPc, State.pop_push hp]
    rfl
  have hcall := (onlyChanges_push hp).trans (onlyChanges_setPc t (pcOf nnn))
  have hret := (onlyChanges_pop hpop).trans (onlyChanges_setPc _ s.npc)
  have hframe := (hcall.trans hret).mono (may' := [.sp, .pc, .stackEntry s.sp.val]) (by simp)
  exact ⟨_, exec_call_some nnn hp, _, exec_ret_some u hpop, hframe.drop rfl, s.npc_eq⟩

/-- Settles O27: the sum wraps modulo 4096; the skip is `skipIf` on inequality. -/
theorem jumpV0AndSkipNeqReg : Obligations.JumpV0AndSkipNeqReg := by
  intro nnn x y u s
  refine ⟨⟨_, exec_jpV0 nnn s, onlyChanges_setPc s _, ?_⟩, ⟨_, exec_sneReg x y u s, onlyChanges_skipIf s _, ?_⟩⟩
  · rw [State.setPc_pc, jumpV0Target, pcPlus_toNat, pcOf_eq]
  · simp only [State.skipIf_pc, decide_eq_true_eq, ne_eq, ite_not]

end Sys2Proof.Machine
end

section
/-! Arithmetic, logic, shifts, random (41_alu.md): results and flags as numbers, and what the shared ending
`(s.setFlagThenReg x c b).advance` of the flag-writing instructions leaves. -/
namespace Sys2Proof.Machine

open Sys2Proof.Safety

/-! ### Results and flags -/

theorem toNat_subResult (a b : Byte) : ((subResult a b).toNat : Int) = (a.toNat - b.toNat : Int) % 256 := by
  have ha : a.toNat < 256 := a.isLt
  have hb : b.toNat < 256 := b.isLt
  have h : (subResult a b).toNat = (a.toNat + 256 - b.toNat) % 256 := BitVec.toNat_ofNat _ 8
  omega

theorem toNat_shrResult (a : Byte) : (shrResult a).toNat = a.toNat / 2 :=
  have ha : a.toNat < 256 := a.isLt
  toNat_ofNat_of_lt (by omega)

theorem toNat_shlResult (a : Byte) : (shlResult a).toNat = (2 * a.toNat) % 256 := by
  rw [Nat.mul_comm]
  exact BitVec.toNat_ofNat _ 8

theorem flagByte_decide (p : Prop) [Decidable p] : flagByte (decide p) = if p then 1 else 0 := by
  simp only [flagByte, decide_eq_true_eq]

theorem toNat_flagByte_decide (p : Prop) [Decidable p] : (flagByte (decide p)).toNat = if p then 1 else 0 := by
  rw [flagByte_decide]
  split <;> rfl

theorem toNat_flagByte_shrOut (a : Byte) : (flagByte (shrOut a)).toNat = a.toNat % 2 := by
  have h : shrOut a = decide (a.toNat % 2 = 1) := by simp [shrOut, BitVec.getLsbD, Nat.testBit_zero]
  rw [h, toNat_flagByte_decide]
  split <;> omega

theorem toNat_flagByte_shlOut (a : Byte) : (flagByte (shlOut a)).toNat = a.toNat / 128 := by
  have ha : a.toNat < 256 := a.isLt
  have h : shlOut a = decide (a.toNat / 128 % 2 = 1) := Nat.testBit_eq_decide_div_mod_eq
  rw [h, toNat_flagByte_decide]
  split <;> omega

/-! ### The shared ending of the flag-writing instructions -/

theorem onlyChanges_setFlagThenReg_advance (s : State) (x : Nibble) (c : Bool) (b : Byte) :
    OnlyChanges [.pc, .reg 15, .reg x] s (s.setFlagThenReg x c b).advance :=
  (onlyChanges_setFlagThenReg s x c b).advance

theorem State.pc_setFlagThenReg_advance (s : State) (x : Nibble) (c : Bool) (b : Byte) :
    (s.setFlagThenReg x c b).advance.pc = s.pc + 2 := by
  rw [State.advance_pc, State.setFlagThenReg_npc, State.npc_eq]

theorem State.reg_setFlagThenReg_advance_self (s : State) (x : Nibble) (c : Bool) (b : Byte) :
    (s.setFlagThenReg x c b).advance.reg x = b := by
  rw [State.advance_reg, State.reg_setFlagThenReg, if_pos rfl]

theorem State.reg_setFlagThenReg_advance_flag (s : State) {x : Nibble} (hx : x ≠ 15) (c : Bool) (b : Byte) :
    (s.setFlagThenReg x c b).advance.reg 15 = flagByte c := by
  rw [State.advance_reg, State.reg_setFlagThenReg, if_neg hx.symm, if_pos rfl]

/-! ### The obligations -/

/-- Settles O29: each is one write of register `x`, and the bits are those of the operation. -/
theorem assignAndBitwise : Obligations.AssignAndBitwise := by
  intro x y s
  have hframe (b : Byte) := onlyChanges_setReg_advance s x b
  have hpc (b : Byte) := s.pc_setReg_advance x b
  refine ⟨⟨_, exec_ldReg x y s, hframe _, hpc _, s.reg_setReg_advance_self x _⟩,
    ⟨_, exec_orReg x y s, hframe _, hpc _, fun k _ => ?_⟩, ⟨_, exec_andReg x y s, hframe _, hpc _, fun k _ => ?_⟩,
    ⟨_, exec_xorReg x y s, hframe _, hpc _, fun k _ => ?_⟩⟩
  · rw [State.reg_setReg_advance_self, BitVec.getLsbD_or]
  · rw [State.reg_setReg_advance_self, BitVec.getLsbD_and]
  · rw [State.reg_setReg_advance_self, BitVec.getLsbD_xor]

/-- Settles O30: sum and carry are both taken from the registers as they were. -/
theorem addSetsCarry : Obligations.AddSetsCarry := by
  intro x y s hx
  refine ⟨_, exec_addReg x y s, onlyChanges_setFlagThenReg_advance s x _ _, s.pc_setFlagThenReg_advance x _ _, ?_, ?_⟩
  · rw [State.reg_setFlagThenReg_advance_self, toNat_addResult]
  · rw [s.reg_setFlagThenReg_advance_flag hx, addCarry, flagByte_decide]

/-- Settles O31: both are one subtraction, with the operands exchanged. -/
theorem subtractionsSetNoBorrow : Obligations.SubtractionsSetNoBorrow := by
  intro x y s hx
  refine ⟨⟨_, exec_subReg x y s, onlyChanges_setFlagThenReg_advance s x _ _, s.pc_setFlagThenReg_advance x _ _, ?_, ?_⟩,
    ⟨_, exec_subnReg x y s, onlyChanges_setFlagThenReg_advance s x _ _, s.pc_setFlagThenReg_advance x _ _, ?_, ?_⟩⟩
  · rw [State.reg_setFlagThenReg_advance_self, toNat_subResult]
  · rw [s.reg_setFlagThenReg_advance_flag hx, subNoBorrow, flagByte_decide]
  · rw [State.reg_setFlagThenReg_advance_self, toNat_subResult]
  · rw [s.reg_setFlagThenReg_advance_flag hx, subNoBorrow, flagByte_decide]

/-- Settles O32: the bit shifted out is a remainder to the right, a quotient to the left. -/
theorem shiftsMoveByOneBit : Obligations.ShiftsMoveByOneBit := by
  intro x y s hx
  refine ⟨⟨_, exec_shr x y s, onlyChanges_setFlagThenReg_advance s x _ _, s.pc_setFlagThenReg_advance x _ _, ?_, ?_⟩,
    ⟨_, exec_shl x y s, onlyChanges_setFlagThenReg_advance s x _ _, s.pc_setFlagThenReg_advance x _ _, ?_, ?_⟩⟩
  · rw [State.reg_setFlagThenReg_advance_self, toNat_shrResult]
  · rw [s.reg_setFlagThenReg_advance_flag hx, toNat_flagByte_shrOut]
  · rw [State.reg_setFlagThenReg_advance_self, toNat_shlResult]
  · rw [s.reg_setFlagThenReg_advance_flag hx, toNat_flagByte_shlOut]

/-- With VF as destination one register is written, and it holds the result (70_reset_and_hazards.md R258). -/
theorem onlyChanges_setFlagThenReg_vf_advance (s : State) (c : Bool) (b : Byte) :
    OnlyChanges [.pc, .reg 15] s (s.setFlagThenReg 15 c b).advance :=
  (onlyChanges_setFlagThenReg_advance s 15 c b).mono (by simp)

/-- Settles O33: the flag is written first, so the result is what stays. -/
theorem vfAsDestinationKeepsTheResult : Obligations.VfAsDestinationKeepsTheResult := by
  intro y s
  have hframe (c : Bool) (b : Byte) := onlyChanges_setFlagThenReg_vf_advance s c b
  have hpc (c : Bool) (b : Byte) := s.pc_setFlagThenReg_advance 15 c b
  refine ⟨⟨_, exec_addReg 15 y s, hframe _ _, hpc _ _, ?_⟩, ⟨_, exec_subReg 15 y s, hframe _ _, hpc _ _, ?_⟩,
    ⟨_, exec_subnReg 15 y s, hframe _ _, hpc _ _, ?_⟩, ⟨_, exec_shr 15 y s, hframe _ _, hpc _ _, ?_⟩,
    ⟨_, exec_shl 15 y s, hframe _ _, hpc _ _, ?_⟩⟩ <;> rw [State.reg_setFlagThenReg_advance_self]
  · exact toNat_addResult _ _
  · exact toNat_subResult _ _
  · exact toNat_subResult _ _
  · exact toNat_shrResult _
  · exact toNat_shlResult _

/-- What a Random leaves, whatever byte it takes. -/
theorem execRndFrom_spec (r : Byte) (x : Nibble) (kk : Byte) (s : State) :
    ∃ t, execRndFrom r x kk s = .next t ∧ OnlyChanges [.pc, .reg x, .randCount] s t ∧ t.pc = s.pc + 2 ∧
      t.randCount = s.randCount + 1 ∧ t.reg x = r &&& kk := by
  have hframe := ((onlyChanges_setReg s x (r &&& kk)).trans (onlyChanges_useRand _)).advance
  refine ⟨_, rfl, hframe.mono (by simp), ?_, rfl, ?_⟩
  · rw [State.advance_pc, State.useRand_npc, State.setReg_npc, State.npc_eq]
  · rw [State.advance_reg, State.useRand_reg, State.reg_setReg, if_pos rfl]

/-- Settles O34: the same meaning with the byte supplied and with the free one. -/
theorem randomMasksTheSuppliedByte : Obligations.RandomMasksTheSuppliedByte := by
  intro r x kk s
  obtain ⟨t, hexec, hframe, hpc, hcount, hreg⟩ := execRndFrom_spec r x kk s
  obtain ⟨t', hexec', hframe', hpc', _, hreg'⟩ := execRndFrom_spec (Config.randIn s.randCount) x kk s
  refine ⟨⟨t, hexec, hframe, hpc, hcount, fun k _ => ?_⟩, rfl, ⟨t', hexec', hframe', hpc', ?_⟩⟩
  · rw [hreg, BitVec.getLsbD_and]
  · rw [hreg', BitVec.and_assoc, BitVec.and_not_self]
    exact BitVec.and_zero

end Sys2Proof.Machine
end

section
/-! A dump and then a load from the same place (42_index_memory.md R164, R165). -/
namespace Sys2Proof.Machine

theorem addrPlus_toNat_nibble_succ (a : Addr) (x : Nibble) : addrPlus a (x.toNat + 1) = a + (x.setWidth 12 + 1) := by
  rw [← addrPlus_addrPlus, addrPlus_toNat_nibble, addrPlus_one, BitVec.add_assoc]

/-- Settles O40: the load reads back, register by register, what the dump stored; each moves `I` by one run. -/
theorem dumpThenLoadRestores : Obligations.DumpThenLoadRestores := by
  intro x s t s2 hdump hireg hbytes
  obtain ⟨t', hdump', _, _, _, hstored⟩ := regDumpStoresTheRun x s
  obtain rfl : t' = t := Host.Outcome.next.inj (hdump'.symm.trans hdump)
  obtain ⟨u, hload, _, _, _, hloaded, _⟩ := regLoadLoadsTheRun x s2
  refine ⟨u, hload, fun r hr => ?_, ?_, ?_⟩
  · rw [hloaded r hr, hireg, hbytes, hstored r hr]
  · obtain rfl := Host.Outcome.next.inj hdump
    exact addrPlus_toNat_nibble_succ s.ireg x
  · obtain rfl := Host.Outcome.next.inj hdump
    obtain rfl := Host.Outcome.next.inj hload
    exact congrArg (addrPlus · (x.toNat + 1)) hireg

end Sys2Proof.Machine
end

section
/-! Draw (43_display.md R181 to R184): what the blit of a Draw does to a pixel of the grid, and the three statements. -/
namespace Sys2Proof.Machine

open Sys2Proof.Safety

/-! ### Draw, pixel by pixel -/

theorem pixel_blit (s : State) (x y n : Nibble) {px py : Nat} (hx : px < 64) (hy : py < 32) :
    (s.blit x y n).1.pixel px py = (s.pixel px py ^^
      spriteCovers (s.spriteRows n.toNat) (drawColumn (s.reg x)) (drawRow (s.reg y)) px py) :=
  pixel_blitRows (s.disp, false) _ _ _ px py hx hy

theorem pixel_blit_of_covers {s : State} {x y n : Nibble} {px py : Nat} (hx : px < 64) (hy : py < 32)
    (h : DrawCovers s x y n px py) : (s.blit x y n).1.pixel px py = !s.pixel px py := by
  rw [pixel_blit s x y n hx hy, (spriteCovers_iff_drawCovers s x y n px py).2 h, Bool.xor_true]

theorem pixel_blit_of_not_covers {s : State} {x y n : Nibble} {px py : Nat} (hx : px < 64) (hy : py < 32)
    (h : ¬ DrawCovers s x y n px py) : (s.blit x y n).1.pixel px py = s.pixel px py := by
  have hcov := (spriteCovers_iff_drawCovers s x y n px py).not.2 h
  rw [pixel_blit s x y n hx hy, Bool.eq_false_of_not_eq_true hcov, Bool.xor_false]

/-! ### What a Draw leaves -/

/-- The state after a Draw. -/
def drawn (s : State) (x y n : Nibble) : State :=
  ((s.setDisplay (s.blit x y n).1).setFlag (s.blit x y n).2).advance

theorem exec_drw_eq_drawn (x y n : Nibble) (s : State) : exec (.drw x y n) s = .next (drawn s x y n) := exec_drw x y n s

theorem onlyChanges_drawn (s : State) (x y n : Nibble) :
    OnlyChanges [.pc, .reg 15, .display, .displayChanged] s (drawn s x y n) :=
  ((onlyChanges_setDisplay s _).trans (onlyChanges_setFlag _ _)).advance

theorem drawn_pc (s : State) (x y n : Nibble) : (drawn s x y n).pc = s.pc + 2 := by
  rw [drawn, State.advance_pc, State.setFlag_npc, State.setDisplay_npc, State.npc_eq]

theorem drawn_disp (s : State) (x y n : Nibble) : (drawn s x y n).disp = (s.blit x y n).1 := rfl

theorem drawn_displayChanged (s : State) (x y n : Nibble) : (drawn s x y n).displayChanged = true := rfl

theorem drawn_reg_vf (s : State) (x y n : Nibble) : (drawn s x y n).reg 15 = flagByte (s.blit x y n).2 := by
  rw [drawn, State.advance_reg, State.reg_setFlag, if_pos rfl]

theorem flagByte_eq_one_iff (c : Bool) : flagByte c = 1 ↔ c = true := by
  cases c <;> decide

theorem flagByte_eq_zero_iff (c : Bool) : flagByte c = 0 ↔ ¬ c = true := by
  cases c <;> decide

/-- VF is 1 exactly when a pixel the sprite covers was lit, else 0. -/
theorem drawn_reg_vf_eq_one_iff (s : State) (x y n : Nibble) : (drawn s x y n).reg 15 = 1 ↔
    ∃ px py, px < 64 ∧ py < 32 ∧ DrawCovers s x y n px py ∧ s.pixel px py = true := by
  rw [drawn_reg_vf, flagByte_eq_one_iff, blit_collides_iff]

theorem drawn_reg_vf_eq_zero_iff (s : State) (x y n : Nibble) : (drawn s x y n).reg 15 = 0 ↔
    ¬ ∃ px py, px < 64 ∧ py < 32 ∧ DrawCovers s x y n px py ∧ s.pixel px py = true := by
  rw [drawn_reg_vf, flagByte_eq_zero_iff, blit_collides_iff]

/-- Settles O42: the blit inverts the covered pixels of the grid, and collides on those that were lit. -/
theorem drawXorsTheSprite : Obligations.DrawXorsTheSprite := fun x y n s =>
  ⟨drawn s x y n, exec_drw_eq_drawn x y n s, onlyChanges_drawn s x y n, drawn_pc s x y n, drawn_displayChanged s x y n,
    fun _ _ hx hy => pixel_blit_of_covers hx hy, fun _ _ hx hy => pixel_blit_of_not_covers hx hy,
    (drawn_reg_vf_eq_one_iff s x y n).2, (drawn_reg_vf_eq_zero_iff s x y n).2⟩

/-- A sprite with its top row off the grid, or with no rows, covers nothing of the grid. -/
theorem not_drawCovers_of_off_grid {s : State} {x y n : Nibble} (h : 32 ≤ (s.reg y).toNat ∨ n = 0) {px py : Nat}
    (hy : py < 32) : ¬ DrawCovers s x y n px py := by
  rintro ⟨_, _, htop, hbottom, _⟩
  rcases h with h | rfl
  · omega
  · simp at hbottom
    omega

/-- Settles O43: no pixel is covered, so the buffer comes out as it was and nothing collides. -/
theorem drawOffTheGridOrWithNoRows : Obligations.DrawOffTheGridOrWithNoRows := by
  intro x y n s h
  have hdisp : (drawn s x y n).disp = s.disp :=
    Display.ext_pixel fun px py hx hy => pixel_blit_of_not_covers hx hy (not_drawCovers_of_off_grid h hy)
  have hframe := (onlyChanges_drawn s x y n).mono (may' := [.display, .pc, .reg 15, .displayChanged]) (by simp)
  refine ⟨_, exec_drw_eq_drawn x y n s, hframe.drop hdisp, drawn_pc s x y n, ?_, rfl⟩
  rw [drawn_reg_vf_eq_zero_iff]
  rintro ⟨px, py, _, hy, hcov, _⟩
  exact not_drawCovers_of_off_grid h hy hcov

/-- Covered and lit afterwards is the same as dark before and lit afterwards. -/
theorem covers_and_lit_iff (s : State) (x y n : Nibble) {px py : Nat} (hx : px < 64) (hy : py < 32) :
    DrawCovers s x y n px py ∧ (s.blit x y n).1.pixel px py = true ↔
      s.pixel px py = false ∧ (s.blit x y n).1.pixel px py = true := by
  by_cases hc : DrawCovers s x y n px py
  · simp [pixel_blit_of_covers hx hy hc, hc]
  · simp [pixel_blit_of_not_covers hx hy hc, hc]

/-- What a Draw covers depends only on the sprite's rows, its column modulo 64 and its row. -/
theorem drawCovers_congr {s s2 : State} {x y x' y' n : Nibble}
    (hrows : s2.spriteRows n.toNat = s.spriteRows n.toNat) (hcol : (s2.reg x').toNat % 64 = (s.reg x).toNat % 64)
    (hrow : s2.reg y' = s.reg y) (px py : Nat) : DrawCovers s2 x' y' n px py ↔ DrawCovers s x y n px py := by
  have hcol' : drawColumn (s2.reg x') = drawColumn (s.reg x) := hcol
  rw [← spriteCovers_iff_drawCovers, ← spriteCovers_iff_drawCovers, hrows, hcol', hrow]

/-- Settles O44: the second sprite covers the same pixels, so each is inverted twice; a covered pixel that the first Draw
left lit is one that it lit. -/
theorem drawingTwiceRestores : Obligations.DrawingTwiceRestores := by
  intro x y x' y' n s t s2 ht hdisp hireg hrows hcol hrow
  obtain rfl : drawn s x y n = t := Host.Outcome.next.inj ((exec_drw_eq_drawn x y n s).symm.trans ht)
  have hspr : s2.spriteRows n.toNat = s.spriteRows n.toNat :=
    List.map_congr_left fun r hr => by rw [hireg]; exact hrows r (List.mem_range.1 hr)
  have hcov := drawCovers_congr hspr hcol hrow
  have hpixel (px py : Nat) : s2.pixel px py = (s.blit x y n).1.pixel px py := by
    rw [State.pixel, hdisp, drawn_disp]
  refine ⟨_, exec_drw_eq_drawn x' y' n s2, Display.ext_pixel fun px py hx hy => ?_, ?_, ?_⟩
  · rw [drawn_disp]
    by_cases hc : DrawCovers s x y n px py
    · rw [pixel_blit_of_covers hx hy ((hcov px py).2 hc), hpixel, pixel_blit_of_covers hx hy hc, Bool.not_not]
      rfl
    · rw [pixel_blit_of_not_covers hx hy ((hcov px py).not.2 hc), hpixel, pixel_blit_of_not_covers hx hy hc]
      rfl
  · rw [drawn_reg_vf_eq_one_iff]
    refine exists_congr fun px => exists_congr fun py => and_congr_right fun hx => and_congr_right fun hy => ?_
    rw [hcov, hpixel]
    exact covers_and_lit_iff s x y n hx hy
  · rw [drawn_reg_vf, flagByte_eq_zero_iff, flagByte_eq_one_iff]
    exact (em _).symm

end Sys2Proof.Machine
end

section
/-! Keys and timers (44_keys_timers.md) and the events on them (60_exceptions.md sections 3 and 8). -/
namespace Sys2Proof.Machine

open Sys2Proof.Safety

/-! ### Keys -/

theorem keySelect_eq {b : Byte} {k : Nibble} (h : k.toNat = b.toNat % 16) : keySelect b = k := by
  apply BitVec.eq_of_toNat_eq
  rw [h, keySelect, BitVec.extractLsb'_toNat, Nat.shiftRight_zero]

/-- Settles O45: both are `skipIf` on the selected key, SKNP with its two targets exchanged. -/
theorem keySkipsTestTheSelectedKey : Obligations.KeySkipsTestTheSelectedKey := by
  intro x k s hk
  refine ⟨⟨_, exec_sknp x s, onlyChanges_skipIf s _, ?_⟩, ⟨_, exec_skp x s, onlyChanges_skipIf s _, ?_⟩⟩ <;>
    rw [keySelect_eq hk, State.skipIf_pc]
  cases s.keyOn k <;> rfl

/-- A pressed key below which none is pressed is the one found. -/
theorem State.leastKey_eq_some {s : State} {k : Nibble} (hk : s.keyOn k = true)
    (hmin : ∀ j : Nibble, s.keyOn j = true → k.toNat ≤ j.toNat) : s.leastKey = some k := by
  cases hl : s.leastKey with
  | none =>
    rw [s.leastKey_eq_none_iff.1 hl k] at hk
    cases hk
  | some j =>
    obtain ⟨hj, hjmin⟩ := State.leastKey_some hl
    rw [BitVec.eq_of_toNat_eq (Nat.le_antisymm (hjmin k hk) (hmin j hj))]

/-- Settles O46: the key described is the one found. -/
theorem waitKeyStoresTheLeastPressedKey : Obligations.WaitKeyStoresTheLeastPressedKey := by
  intro x k s hk hmin
  refine ⟨_, exec_ldVxK_some x (State.leastKey_eq_some hk hmin), onlyChanges_setReg_advance s x _,
    s.pc_setReg_advance x _, ?_⟩
  rw [State.reg_setReg_advance_self]
  exact BitVec.toNat_setWidth_of_le (by decide)

/-- Settles O47: PC is written with its own value. -/
theorem waitKeyWithNoKeyRunsAgain : Obligations.WaitKeyWithNoKeyRunsAgain :=
  fun x s h => exec_ldVxK_none x (s.leastKey_eq_none_iff.2 h)

/-! ### Ticks -/

theorem onlyChanges_tick (s : State) : OnlyChanges [.dt, .st, .beepRequested] s (tick s) := by
  cases hr : s.runState with
  | halted =>
    rw [tick_halted hr]
    exact onlyChanges_refl s _
  | running =>
    rw [tick_running hr]
    intro p hp
    cases p
    case dt | st | beepRequested => simp at hp
    all_goals rfl

theorem tick_dt {s : State} (hr : s.runState = .running) : (tick s).dt.toNat = s.dt.toNat - 1 := by
  have hdt : s.dt.toNat < 256 := s.dt.isLt
  rw [tick_running hr]
  exact toNat_ofNat_of_lt (by omega)

theorem tick_st {s : State} (hr : s.runState = .running) : (tick s).st.toNat = s.st.toNat - 1 := by
  have hst : s.st.toNat < 256 := s.st.isLt
  rw [tick_running hr]
  exact toNat_ofNat_of_lt (by omega)

theorem tick_beepRequested {s : State} (hr : s.runState = .running) :
    (tick s).beepRequested = (s.beepRequested || decide (s.st.toNat = 1)) := by
  rw [tick_running hr]

theorem tick_runState (s : State) : (tick s).runState = s.runState := onlyChanges_tick s .runState (by simp)

/-- Settles O50: both timers and the flag are read off the tick in Running. -/
theorem tickCountsBothTimers : Obligations.TickCountsBothTimers :=
  fun s hr => ⟨tick s, rfl, onlyChanges_tick s, tick_dt hr, tick_st hr, tick_beepRequested hr⟩

/-- Settles O49: Set-sound writes ST alone, and a tick right after looks at the ST just written. -/
theorem setSoundRequestsNoBeep : Obligations.SetSoundRequestsNoBeep := by
  intro x s
  refine ⟨_, exec_ldStVx x s, (onlyChanges_setSt s _).advance, ?_, rfl, rfl, fun hr => ⟨_, rfl, ?_⟩⟩
  · rw [State.advance_pc, State.setSt_npc, State.npc_eq]
  · exact tick_beepRequested hr

/-- The decrements to 0 among the first tick and those after it: ST reaches 0 on the way exactly once. -/
theorem decide_reaches_zero_succ (m n : Nat) :
    (decide (m = 1) || decide (0 < m - 1 ∧ m - 1 ≤ n)) = decide (0 < m ∧ m ≤ n + 1) := by
  rw [← Bool.decide_or, decide_eq_decide]
  omega

/-- Settles O51, by induction on the number of ticks. -/
theorem manyTicksCountDown : Obligations.ManyTicksCountDown := by
  intro n
  induction n with
  | zero =>
    intro s _
    have hnever : decide (0 < s.st.toNat ∧ s.st.toNat ≤ 0) = false := decide_eq_false (by omega)
    exact ⟨s, rfl, onlyChanges_refl s _, rfl, rfl, by rw [hnever, Bool.or_false]⟩
  | succ n ih =>
    intro s hr
    obtain ⟨t, ht, hframe, hdt, hst, hbeep⟩ := ih (tick s) ((tick_runState s).trans hr)
    refine ⟨t, ht, ((onlyChanges_tick s).trans hframe).mono (by simp), ?_, ?_, ?_⟩
    · rw [hdt, tick_dt hr, Nat.sub_sub, Nat.add_comm]
    · rw [hst, tick_st hr, Nat.sub_sub, Nat.add_comm]
    · rw [hbeep, tick_beepRequested hr, tick_st hr, Bool.or_assoc, decide_reaches_zero_succ]

/-! ### Key events and acknowledges -/

theorem onlyChanges_ackDisplay (s : State) : OnlyChanges [.displayChanged] s (ackDisplay s) := by
  intro p hp
  cases p
  case displayChanged => simp at hp
  all_goals rfl

theorem onlyChanges_ackBeep (s : State) : OnlyChanges [.beepRequested] s (ackBeep s) := by
  intro p hp
  cases p
  case beepRequested => simp at hp
  all_goals rfl

/-- Settles O52: each is one write, with no look at the run state. -/
theorem keyAndAcknowledgeEvents : Obligations.KeyAndAcknowledgeEvents := fun k s =>
  have hkey (b : Bool) : (s.setKey k b).keyOn k = b := (s.keyOn_setKey k k b).trans (if_pos rfl)
  ⟨⟨_, rfl, onlyChanges_setKey s k true, hkey true⟩, ⟨_, rfl, onlyChanges_setKey s k false, hkey false⟩,
    ⟨_, rfl, onlyChanges_ackDisplay s, rfl⟩, ⟨_, rfl, onlyChanges_ackBeep s, rfl⟩⟩

end Sys2Proof.Machine
end

section
/-! Load and reset (70_reset_and_hazards.md sections 1 and 2), and that the parts of the frame are the whole state
(10_state.md section 1; log 3). -/
namespace Sys2Proof.Machine

open Sys2Proof.Safety

/-! ### Load -/

/-- Settles O53: the program is one run of bytes stored from 0x200, too short to overwrite itself. -/
theorem romLoadCopiesTheProgram : Obligations.RomLoadCopiesTheProgram := by
  intro rom s hr hlen
  refine ⟨_, congrArg Host.Outcome.next (romLoad_of_fits hr hlen), onlyChanges_storeBytes s Config.progBase rom,
    fun j hj => ?_⟩
  have hread := s.readByte_storeBytes_of_lt Config.progBase rom (by omega) hj
  rw [addrPlus_eq_add] at hread
  rw [List.getElem?_eq_getElem hj, ← hread]
  rfl

/-- Settles O54: the fatal condition is taken instead of the store. -/
theorem romTooLargeHalts : Obligations.RomTooLargeHalts := fun _ s hr hlen =>
  ⟨_, congrArg Host.Outcome.next (romLoad_of_too_large hr hlen), onlyChanges_raise s _ _, rfl, rfl, rfl, rfl⟩

/-! ### Reset -/

theorem reset_reg (r : Nibble) : State.reset.reg r = 0 := by
  simp [State.reg, State.reset]

theorem reset_keyOn (k : Nibble) : State.reset.keyOn k = false := by
  simp [State.keyOn, State.reset]

theorem reset_stack {k : Nat} (hk : k < params.stackDepth) : State.reset.stack[k]? = some 0 := by
  simp [State.reset, hk]

theorem reset_readByte (a : Addr) : State.reset.readByte a = Memory.resetByte a.toNat := rfl

theorem resetByte_of_font {a : Nat} (h : a < 0x50) : some (Memory.resetByte a) = params.font[a]? := by
  rw [Memory.resetByte, Vector.getElem?_eq_getElem h, Option.getD_some]

theorem resetByte_of_no_font {a : Nat} (h : 0x50 ≤ a) : Memory.resetByte a = 0 := by
  rw [Memory.resetByte, Vector.getElem?_eq_none h, Option.getD_none]

/-- Settles O18: the event and the first state differ in the counter alone, which none of the items reads. -/
theorem resetLeavesTheSpecifiedState : Obligations.ResetLeavesTheSpecifiedState := by
  intro s t h
  have ht : ∃ c, t = { State.reset with randCount := c } := by
    rcases h with h | rfl
    · exact ⟨s.randCount, (Host.Outcome.next.inj h).symm⟩
    · exact ⟨0, rfl⟩
  obtain ⟨c, rfl⟩ := ht
  exact ⟨reset_reg, rfl, rfl, rfl, fun _ => reset_stack, rfl, rfl, fun a ha => resetByte_of_font ha,
    fun a ha => resetByte_of_no_font ha, Display.pixel_blank, reset_keyOn, rfl, rfl, rfl, rfl, rfl, rfl⟩

/-- Settles O19: the word at 0x200 is 0x0000, which no row of the opcode map has. -/
theorem firstStepWithoutAProgramHalts : Obligations.FirstStepWithoutAProgramHalts := by
  have hd : decode (State.reset.fetchWord State.reset.pc) = .error (.unknownInstruction 0x0000) := by decide
  obtain ⟨t, hstep, hframe, hpc, hr, _, hkind, hword, herr⟩ := stepOnUnknownWordHalts State.reset _ rfl hd
  have hw : State.reset.fetchWord State.reset.pc = 0x0000 := by decide
  exact ⟨t, hstep, decide_eq_true hr, hkind, hword.trans hw, herr, hpc, hframe, cycle_halted params exec hr⟩

/-! ### The parts of a state -/

theorem State.readByte_ext {s t : State} (hs : Memory.wf s.mem = true) (ht : Memory.wf t.mem = true)
    (h : ∀ a : Addr, t.readByte a = s.readByte a) : t.mem = s.mem := by
  refine Memory.wfFrom_ext t.mem s.mem 0 ht hs fun a => ?_
  by_cases ha : a < Config.memSize
  · have := h (BitVec.ofNat 12 a)
    rwa [State.readByte, State.readByte, toNat_ofNat_of_lt ha] at this
  · have ha' : Config.memSize ≤ a := Nat.le_of_not_lt ha
    rw [Memory.read_of_memSize_le _ 0 a ht ha', Memory.read_of_memSize_le _ 0 a hs ha']

theorem State.key_ext {s t : State} (h : ∀ k, t.keyOn k = s.keyOn k) : t.key = s.key := by
  apply Vector.ext
  intro i hi
  have := h (BitVec.ofNat 4 i)
  simpa only [State.keyOn, toNat_ofNat_of_lt (w := 4) hi] using this

theorem State.stack_ext {s t : State} (h : ∀ k : Nat, t.stack[k]? = s.stack[k]?) : t.stack = s.stack :=
  Vector.ext fun i hi => getElem_eq_of_getElem?_eq hi (h i)

/-- Settles O60: every field is read whole by some part, memory because its form is canonical. -/
theorem partsAreTheWholeState : Obligations.PartsAreTheWholeState := by
  intro s t hs ht h
  have hpart (p : Part) : Unchanged s t p := h p List.not_mem_nil
  have hv : t.v = s.v := State.v_ext fun r => hpart (.reg r)
  have hmem : t.mem = s.mem := State.readByte_ext hs ht fun a => hpart (.byte a)
  have hkey : t.key = s.key := State.key_ext fun k => hpart (.key k)
  have hstack : t.stack = s.stack := State.stack_ext fun k => hpart (.stackEntry k)
  cases s
  cases t
  simp only [State.mk.injEq]
  exact ⟨hv, hpart .index, hpart .pc, hstack, hpart .sp, hpart .dt, hpart .st, hmem, hpart .display, hkey,
    hpart .displayChanged, hpart .beepRequested, hpart .runState, hpart .errKind, hpart .errWord, hpart .errPc,
    hpart .randCount⟩

end Sys2Proof.Machine
end
